-- ==== Sys2Proof/Word.lean ====
section
/-! DEFINITION. Bytes, byte sequences and command words (00_scope.md section 4, R9). -/

namespace Sys2Proof

/-- One buffer element: "an ordered, mutable sequence of 8-bit values" (R9). -/
abbrev Byte := BitVec 8

/-- A byte sequence; `Bytes(n)` of the spec is the sequences of length `n`. -/
abbrev Bytes := List Byte

/-- A 16-bit command word, a number handed over whole: it has no byte serialisation (R32, R50). -/
abbrev CmdWord := BitVec 16

/-- `rep(v, n)`: `n` bytes each equal to `v`. -/
def rep (v : Byte) (n : Nat) : Bytes := List.replicate n v

/-- `zeros(n) = rep(0, n)`. -/
def zeros (n : Nat) : Bytes := rep 0 n

end Sys2Proof
end

