-- ==== Sys2Proof/Config.lean ====
section
/-! DEFINITION. The configuration `(BS, KL, CAP, PrimEnc, PrimDec)` of 00_scope.md R5 to R8.
It is no state (R25). A `Config` can be built for exactly the values the spec admits; the machine's own is `Config.impl`,
which has no body. -/

namespace Sys2Proof

/-- The open parameters of R5 to R8 (log 1). The numbers are held so that no inadmissible value can be written:
`BS = bsPred + 1`, `KL = klPred + 1`, and a finite `CAP` is `max(BS, KL) + spare`. The primitive is held as the function
that gives byte `j` of its result, so that every result has length `BS` (log 2). -/
structure Config where
  /-- `BS - 1`, so that `1 <= BS <= 255` (R5). -/
  bsPred : Fin 255
  /-- `KL - 1`, so that `KL >= 1` (R7). -/
  klPred : Nat
  /-- `none` for `CAP = unbounded`, else `CAP - max(BS, KL)` (R8). -/
  capSpare : Option Nat
  /-- Byte `j` of `PrimEnc(k, b)` (R6). -/
  primEncByte : Bytes → Bytes → Nat → Byte
  /-- Byte `j` of `PrimDec(k, b)` (R6). -/
  primDecByte : Bytes → Bytes → Nat → Byte
deriving Inhabited

/-- The block size in bytes (R5). -/
def Config.BS (c : Config) : Nat := c.bsPred.val + 1

/-- The key length in bytes (R7). -/
def Config.KL (c : Config) : Nat := c.klPred + 1

/-- The capacity of one slot in bytes; `none` is `unbounded` (R8). -/
def Config.CAP (c : Config) : Option Nat := c.capSpare.map (max c.BS c.KL + ·)

/-- `n <= CAP`, always true for `CAP = unbounded` (R8). -/
def Config.fits (c : Config) (n : Nat) : Bool :=
  match c.CAP with
  | none => true
  | some cap => decide (n ≤ cap)

/-- `PrimEnc(k, b)`, total, with a result in `Bytes(BS)` (R6). -/
def Config.primEnc (c : Config) (k b : Bytes) : Bytes := (List.range c.BS).map (c.primEncByte k b)

/-- `PrimDec(k, b)`, total, with a result in `Bytes(BS)` (R6). -/
def Config.primDec (c : Config) (k b : Bytes) : Bytes := (List.range c.BS).map (c.primDecByte k b)

/-- The named property of R6, assumed by no command: `PrimDec(k, PrimEnc(k, b)) = b` on `Bytes(KL) x Bytes(BS)`. -/
def Config.PrimInverse (c : Config) : Prop :=
  ∀ k b : Bytes, k.length = c.KL → b.length = c.BS → c.primDec k (c.primEnc k b) = b

/-- The configuration of the engine that `step` is a step of: OPEN (R5 to R8, D3), so nothing of it can be evaluated or
proved but what holds of every configuration. Constant for the life of the engine (R140). -/
opaque Config.impl : Config

end Sys2Proof
end

