-- ==== Sys2Proof/Syntax.lean ====
section
/-! DEFINITION. The eleven commands (30_encoding.md R54, spec/opcode_table.json), their operands, and the host's
transactions (20_memory.md R38 to R42). -/

namespace Sys2Proof

/-- The four buffer slots `B0` to `B3`, all alike, no aliases (R9, R11). -/
inductive Slot where
  | b0 | b1 | b2 | b3
deriving DecidableEq, Repr

/-- The slot number, 0 to 3 (R11). -/
def Slot.num : Slot → Nat
  | .b0 => 0
  | .b1 => 1
  | .b2 => 2
  | .b3 => 3

/-- The commands, one constructor per row of the opcode map (R54). -/
inductive Instr where
  /-- `XOR rd, ra, rb` (R70). -/
  | xor (rd ra rb : Slot)
  /-- `XORI rd, rb` (R71). -/
  | xori (rd rb : Slot)
  /-- `PAD rd, imm8` (R80). -/
  | pad (rd : Slot) (imm8 : BitVec 8)
  /-- `UNPAD rd` (R81). -/
  | unpad (rd : Slot)
  /-- `ECBNEW ra` (R90). -/
  | ecbnew (ra : Slot)
  /-- `CBCNEW ra, rb` (R91). -/
  | cbcnew (ra rb : Slot)
  /-- `BLKSZ` (R92). -/
  | blksz
  /-- `ENCB rd` (R93). -/
  | encb (rd : Slot)
  /-- `DECB rd` (R96). -/
  | decb (rd : Slot)
  /-- `ENC rd` (R110). -/
  | enc (rd : Slot)
  /-- `DEC rd` (R111). -/
  | dec (rd : Slot)
deriving DecidableEq, Repr

/-- The host's five transactions (R10, R38 to R42). -/
inductive HostMove where
  /-- `HostWrite(s, v)` (R38). -/
  | write (sl : Slot) (v : Bytes)
  /-- `HostRead(s)` (R39). -/
  | read (sl : Slot)
  /-- `HostStatus()` (R40). -/
  | status
  /-- `Issue(w)` (R41). -/
  | issue (w : CmdWord)
  /-- `Reset()` (R42). -/
  | reset
deriving DecidableEq, Repr

end Sys2Proof
end

