-- ==== Sys2Proof/WellFormed.lean ====
section
/-! DEFINITION. Which numbers are operands, which terms are commands and moves (30_encoding.md R51, R53, R61; R38). -/

namespace Sys2Proof

/-- The slot of a number: "`rd, ra, rb` in 0..3" (R51, R61); any other number is no slot. -/
def slotOfNum? : Nat → Option Slot
  | 0 => some .b0
  | 1 => some .b1
  | 2 => some .b2
  | 3 => some .b3
  | _ => none

/-- The immediate of a number: "`imm8` in 0..255" (R53, R61); a block size above 255 cannot be encoded (R152). -/
def immOfNum? (n : Nat) : Option (BitVec 8) := if n ≤ 255 then some (BitVec.ofNat 8 n) else none

/-- Every operand of the command is one the encoding has. The operand types already say so (R51: "every value of a slot
field is a valid slot"), so every term of `Instr` is well-formed: `Laws.AllOperandsEncodable`. -/
def Instr.wf : Instr → Bool
  | .xor rd ra rb => (slotOfNum? rd.num == some rd) && (slotOfNum? ra.num == some ra) && (slotOfNum? rb.num == some rb)
  | .xori rd rb => (slotOfNum? rd.num == some rd) && (slotOfNum? rb.num == some rb)
  | .pad rd imm8 => (slotOfNum? rd.num == some rd) && (immOfNum? imm8.toNat == some imm8)
  | .unpad rd => slotOfNum? rd.num == some rd
  | .ecbnew ra => slotOfNum? ra.num == some ra
  | .cbcnew ra rb => (slotOfNum? ra.num == some ra) && (slotOfNum? rb.num == some rb)
  | .blksz => true
  | .encb rd => slotOfNum? rd.num == some rd
  | .decb rd => slotOfNum? rd.num == some rd
  | .enc rd => slotOfNum? rd.num == some rd
  | .dec rd => slotOfNum? rd.num == some rd

/-- A move the spec gives the host of an engine with that value of `FAULTED`: `HostWrite` only with `FAULTED = 0` and
`len(v) <= CAP`, since a refused one is no move of a model (R38, R134); the other four always (R39 to R42, R137). -/
def HostMove.wf (c : Config) (faulted : Bool) : HostMove → Bool
  | .write _ v => !faulted && c.fits v.length
  | .read _ => true
  | .status => true
  | .issue _ => true
  | .reset => true

end Sys2Proof
end

