-- ==== Sys2Proof/Decode.lean ====
section
/-! DEFINITION. The command encoding (30_encoding.md R50 to R58, R61): decoder, then encoder. -/

namespace Sys2Proof

/-! ## Fields (R51) -/

/-- `op = w[15:12]`. -/
def opField (w : CmdWord) : BitVec 4 := w.extractLsb' 12 4

/-- `rd = w[11:10]`. -/
def rdField (w : CmdWord) : BitVec 2 := w.extractLsb' 10 2

/-- `ra = w[9:8]`. -/
def raField (w : CmdWord) : BitVec 2 := w.extractLsb' 8 2

/-- `rb = w[7:6]`. -/
def rbField (w : CmdWord) : BitVec 2 := w.extractLsb' 6 2

/-- `imm8 = w[7:0]`, format I only (R53). -/
def imm8Field (w : CmdWord) : BitVec 8 := w.extractLsb' 0 8

/-- "every value of a slot field is a valid slot" (R51). -/
def slotOfBits (b : BitVec 2) : Slot :=
  match b.toNat with
  | 0 => .b0
  | 1 => .b1
  | 2 => .b2
  | _ => .b3

/-! ## Decoder -/

/-- Why a word is illegal. -/
inductive IllegalWord where
  /-- `op` is 0x0, 0xC, 0xD, 0xE or 0xF (R56). -/
  | reservedOp
  /-- `op` is assigned and a must-be-zero bit of its format is 1 (R57). -/
  | mustBeZeroBit
deriving DecidableEq, Repr

/-- What a word is: one of the eleven commands, or illegal (R55, R58). -/
inductive Decoded where
  | command (i : Instr)
  | illegal (why : IllegalWord)
deriving DecidableEq, Repr

/-- One row of the opcode map (R54): `w` is the command exactly when `(w AND mask) = pattern`. -/
structure OpRow where
  pattern : CmdWord
  mask : CmdWord
  build : CmdWord → Instr

/-- `(w AND mask) = match` of R54. -/
def OpRow.hits (r : OpRow) (w : CmdWord) : Bool := (w &&& r.mask) == r.pattern

/-- The opcode map of R54, in its order, with the fields of R51 that each format of R52 has. -/
def opRows : List OpRow :=
  [ ⟨0x1000, 0xF03F, fun w => .xor (slotOfBits (rdField w)) (slotOfBits (raField w)) (slotOfBits (rbField w))⟩,
    ⟨0x2000, 0xF33F, fun w => .xori (slotOfBits (rdField w)) (slotOfBits (rbField w))⟩,
    ⟨0x3000, 0xF300, fun w => .pad (slotOfBits (rdField w)) (imm8Field w)⟩,
    ⟨0x4000, 0xF3FF, fun w => .unpad (slotOfBits (rdField w))⟩,
    ⟨0x5000, 0xFCFF, fun w => .ecbnew (slotOfBits (raField w))⟩,
    ⟨0x6000, 0xFC3F, fun w => .cbcnew (slotOfBits (raField w)) (slotOfBits (rbField w))⟩,
    ⟨0x7000, 0xFFFF, fun _ => .blksz⟩,
    ⟨0x8000, 0xF3FF, fun w => .encb (slotOfBits (rdField w))⟩,
    ⟨0x9000, 0xF3FF, fun w => .decb (slotOfBits (rdField w))⟩,
    ⟨0xA000, 0xF3FF, fun w => .enc (slotOfBits (rdField w))⟩,
    ⟨0xB000, 0xF3FF, fun w => .dec (slotOfBits (rdField w))⟩ ]

/-- The reserved operation codes (R56). -/
def reservedOp (op : BitVec 4) : Bool := op == 0x0 || op == 0xC || op == 0xD || op == 0xE || op == 0xF

/-- Decoding, total on all 65536 words (R55): the row that the word hits, else illegal, by name (R56, R57). -/
def decode (w : CmdWord) : Decoded :=
  match opRows.find? (fun r => r.hits w) with
  | some r => .command (r.build w)
  | none => .illegal (if reservedOp (opField w) then .reservedOp else .mustBeZeroBit)

/-! ## Encoder -/

/-- The encoding function of R61, as the numbers it writes. -/
def encodeNum : Instr → Nat
  | .xor rd ra rb => 0x1000 + rd.num * 0x400 + ra.num * 0x100 + rb.num * 0x40
  | .xori rd rb => 0x2000 + rd.num * 0x400 + rb.num * 0x40
  | .pad rd imm8 => 0x3000 + rd.num * 0x400 + imm8.toNat
  | .unpad rd => 0x4000 + rd.num * 0x400
  | .ecbnew ra => 0x5000 + ra.num * 0x100
  | .cbcnew ra rb => 0x6000 + ra.num * 0x100 + rb.num * 0x40
  | .blksz => 0x7000
  | .encb rd => 0x8000 + rd.num * 0x400
  | .decb rd => 0x9000 + rd.num * 0x400
  | .enc rd => 0xA000 + rd.num * 0x400
  | .dec rd => 0xB000 + rd.num * 0x400

/-- `enc(i)` of R61: the one word of a command. -/
def encode (i : Instr) : CmdWord := BitVec.ofNat 16 (encodeNum i)

/-- The row of R54 a command belongs to, as `(match, mask)`. -/
def rowOf : Instr → CmdWord × CmdWord
  | .xor _ _ _ => (0x1000, 0xF03F)
  | .xori _ _ => (0x2000, 0xF33F)
  | .pad _ _ => (0x3000, 0xF300)
  | .unpad _ => (0x4000, 0xF3FF)
  | .ecbnew _ => (0x5000, 0xFCFF)
  | .cbcnew _ _ => (0x6000, 0xFC3F)
  | .blksz => (0x7000, 0xFFFF)
  | .encb _ => (0x8000, 0xF3FF)
  | .decb _ => (0x9000, 0xF3FF)
  | .enc _ => (0xA000, 0xF3FF)
  | .dec _ => (0xB000, 0xF3FF)

/-! ## The host's view of a table word -/

/-- The command word of a number whose bits above `nbits` are taken as 0 (log 12). -/
def tableWord (nbits w : Nat) : CmdWord := BitVec.ofNat 16 (w % 2 ^ nbits)

/-- The instruction the decoder reads from a table word; `none` where the word is illegal (R55). -/
def decodeTableWord (nbits w : Nat) : Option Instr :=
  match decode (tableWord nbits w) with
  | .command i => some i
  | .illegal _ => none

end Sys2Proof
end

