-- ==== Sys2Proof/Machine/State.lean ====
section
/-! DEFINITION. The architectural state (10_state.md), the host's side of it, and reset (R24, R140). -/

namespace Sys2Proof.Machine

/-- `MODE` (R14). -/
inductive Mode where
  /-- No context constructed. -/
  | none
  | ecb
  | cbc
deriving DecidableEq, Repr

/-- The buffer file, the engine's only memory (R11, R30). "A model holds a slot as a list of bytes and nothing else" (R13):
`LEN[s]` is the list's length, and an offset at or above it holds no value (log 9). -/
structure Memory where
  b0 : Bytes
  b1 : Bytes
  b2 : Bytes
  b3 : Bytes
deriving DecidableEq, Repr

/-- What the last transaction returned to the host (R39, R40, R41; log 4). -/
inductive HostReply where
  /-- The transaction returns no value (`HostWrite`, `Issue`, `Reset`). -/
  | nothing
  /-- `HostRead(s)` returns `B[s]` (R39). -/
  | bytes (v : Bytes)
  /-- `HostStatus()` returns `(FAULTED, ERR, FCMD, RES)` (R40). -/
  | status (faulted : Bool) (err : BitVec 4) (fcmd : CmdWord) (res : Nat)
deriving DecidableEq, Repr

/-- The host (R10, R21): it is no part of the engine and no command reads or writes it. -/
structure HostSide where
  /-- The transactions still to come, the next one first (R21; log 3). -/
  moves : List HostMove
  /-- "the index of the next word to issue" (R21). -/
  pc : Nat
  /-- What the last transaction returned (log 4). -/
  reply : HostReply
deriving DecidableEq, Repr

/-- The machine: the engine's registers of 10_state.md R11 to R20 and the host beside it. -/
structure State where
  /-- `B[0]` to `B[3]`, with `LEN[0]` to `LEN[3]` (R11, R12). -/
  mem : Memory
  /-- `MODE` (R14). -/
  mode : Mode
  /-- `KEY`, `KL` bytes (R15). -/
  key : Bytes
  /-- `MASK[0]`, `BS` bytes (R16). -/
  mask0 : Bytes
  /-- `MASK[1]`, `BS` bytes (R16). -/
  mask1 : Bytes
  /-- `MASK_I`, one bit (R17). -/
  maskI : BitVec 1
  /-- `FAULTED`, one bit (R19). -/
  faulted : Bool
  /-- `ERR`, four bits (R19). -/
  err : BitVec 4
  /-- `FCMD`, sixteen bits (R20). -/
  fcmd : CmdWord
  /-- `RES`, a natural number no larger than 255 (R20). -/
  res : Nat
  /-- The host (R10, R21). -/
  host : HostSide
deriving DecidableEq, Repr

/-- Reasons for which the machine would stop with a fault: NONE. The engine's eleven faults (R120) do not stop the machine;
each is a next state with `FAULTED = 1` (R133, R134; log 6). -/
inductive Fault
deriving DecidableEq, Repr

/-- Reasons for which the model would have no meaning for a command. -/
inductive Refusal where
  /-- Raised by an arm of `exec` for a command that has no meaning yet: no arm does. Safe: it stops. -/
  | notModelled (mnemonic : String)
deriving DecidableEq, Repr

/-- The state after reset of an engine with configuration `c`, beside the host `h` (R24, R140): every engine register at
the value R24 states. -/
def State.resetWith (c : Config) (h : HostSide) : State where
  mem := ⟨[], [], [], []⟩
  mode := .none
  key := zeros c.KL
  mask0 := zeros c.BS
  mask1 := zeros c.BS
  maskI := 0
  faulted := false
  err := 0
  fcmd := 0x0000
  res := 0
  host := h

/-- A host that has issued nothing (`pc = 0`, R21), plans no move and has received nothing. -/
def HostSide.idle : HostSide := ⟨[], 0, .nothing⟩

/-- The machine right after power-on reset: "the engine is idle and waits for the host" (R24, R140, R141). -/
def State.reset : State := State.resetWith Config.impl HostSide.idle

end Sys2Proof.Machine
end

