-- ==== Sys2Proof/Machine/Operands.lean ====
section
/-! DEFINITION. Reading and writing slots, and the operand and index forms of 20_memory.md R31, 30_encoding.md R53 and
10_state.md R17. -/

namespace Sys2Proof.Machine

/-! ## Slots (R11, R12) -/

/-- `B[s]`. -/
def Memory.get (m : Memory) : Slot → Bytes
  | .b0 => m.b0
  | .b1 => m.b1
  | .b2 => m.b2
  | .b3 => m.b3

/-- `B[s] <- v`, the whole content and so the length. -/
def Memory.set (m : Memory) (sl : Slot) (v : Bytes) : Memory :=
  match sl with
  | .b0 => { m with b0 := v }
  | .b1 => { m with b1 := v }
  | .b2 => { m with b2 := v }
  | .b3 => { m with b3 := v }

/-- The byte at address `(s, off)`; an address with `off >= LEN[s]` does not exist and holds no value (R13, R30). -/
def Memory.byteAt (m : Memory) (sl : Slot) (off : Nat) : Option Byte := (m.get sl)[off]?

/-- "0 <= LEN[s] <= CAP" for all four slots (R12). -/
def Memory.wf (c : Config) (m : Memory) : Bool :=
  c.fits m.b0.length && c.fits m.b1.length && c.fits m.b2.length && c.fits m.b3.length

/-- `B[s]` of a state. -/
def State.buf (s : State) (sl : Slot) : Bytes := s.mem.get sl

/-- `LEN[s]` (R12). -/
def State.len (s : State) (sl : Slot) : Nat := (s.buf sl).length

/-- `B[s] <- v` on a state. -/
def State.setBuf (s : State) (sl : Slot) (v : Bytes) : State := { s with mem := s.mem.set sl v }

/-- The byte at address `(s, off)` of a state. -/
def State.byteAt (s : State) (sl : Slot) (off : Nat) : Option Byte := s.mem.byteAt sl off

/-! ## Immediates and index forms (R31, R53) -/

/-- `zext_8(imm8)`: not scaled, not shifted, not sign-extended (R53). -/
def immValue (imm8 : BitVec 8) : Nat := imm8.toNat

/-- The cyclic form: `b[i mod len(b)]` (R31). No rule reads it with `len(b) = 0`; the 0 is never reached otherwise (log 10). -/
def cyclicByte (b : Bytes) (i : Nat) : Byte := b.getD (i % b.length) 0

/-- The chunk form: chunk `k` starts at offset `k*BS` (R31). -/
def chunkOffset (c : Config) (k : Nat) : Nat := k * c.BS

/-- The last-byte form: the byte at `LEN - 1` (R31); an empty buffer has none. -/
def lastByte? (b : Bytes) : Option Byte := b.getLast?

/-- `MemRead((s, off), n) = B[s][off .. off+n]`, used with `off + n <= LEN[s]` (00_scope.md section 4). -/
def memRead (s : State) (sl : Slot) (off n : Nat) : Bytes := ((s.buf sl).drop off).take n

/-- `MemWrite((s, off), n, v)` with `n = len(v)`, used with `off + n <= LEN[s]` (00_scope.md section 4). -/
def memWrite (s : State) (sl : Slot) (off : Nat) (v : Bytes) : State :=
  s.setBuf sl ((s.buf sl).take off ++ v ++ (s.buf sl).drop (off + v.length))

/-! ## The masks (R16, R17) -/

/-- `MASK[i]`. -/
def State.mask (s : State) (i : BitVec 1) : Bytes := if i = 0 then s.mask0 else s.mask1

/-- `MASK[i] <- v`. -/
def State.setMask (s : State) (i : BitVec 1) (v : Bytes) : State :=
  if i = 0 then { s with mask0 := v } else { s with mask1 := v }

/-- The index of the next mask, `1 - MASK_I` (R17). -/
def otherMask (i : BitVec 1) : BitVec 1 := 1 - i

/-- The current mask `MASK[MASK_I]` (R17). -/
def State.curMask (s : State) : Bytes := s.mask s.maskI

/-- The next mask `MASK[1 - MASK_I]` (R17). -/
def State.nextMask (s : State) : Bytes := s.mask (otherMask s.maskI)

end Sys2Proof.Machine
end

