-- ==== Sys2Proof/Machine/Flags.lean ====
section
/-! DEFINITION. The fault codes. `FAULTED` is the only flag the engine has: no command sets a condition code (10_state.md
R19), so there is no other flag computation. -/

namespace Sys2Proof.Machine

/-- The eleven faults of R120. -/
inductive FaultKind where
  /-- A word that is no command (R121). -/
  | illegalCommand
  /-- `XOR`, `XORI`: `LEN[rb] = 0` (R122). -/
  | emptyKey
  /-- `PAD`: `imm8 = 0` (R123). -/
  | zeroBlockSize
  /-- `PAD`, `ENC`: the padded length would exceed `CAP` (R124). -/
  | capacity
  /-- `UNPAD`, `DEC`: `LEN[rd] = 0` (R125). -/
  | emptyBuffer
  /-- `UNPAD`, `DEC`: the last byte exceeds `LEN[rd]` (R126). -/
  | padUnderflow
  /-- `BLKSZ`, `ENCB`, `DECB`, `ENC`, `DEC`: `MODE = NONE` (R127). -/
  | noMode
  /-- `ECBNEW`, `CBCNEW`: `LEN[ra] != KL` (R128). -/
  | keyLength
  /-- `CBCNEW`: `LEN[rb] != BS` (R129). -/
  | ivLength
  /-- `ENCB`, `DECB`: `LEN[rd] != BS` (R130). -/
  | blockLength
  /-- `DEC`: `LEN[rd] mod BS != 0` (R131). -/
  | misaligned
deriving DecidableEq, Repr

/-- The code stored in `ERR` (R120). -/
def faultCode : FaultKind → BitVec 4
  | .illegalCommand => 1
  | .emptyKey => 2
  | .zeroBlockSize => 3
  | .capacity => 4
  | .emptyBuffer => 5
  | .padUnderflow => 6
  | .noMode => 7
  | .keyLength => 8
  | .ivLength => 9
  | .blockLength => 10
  | .misaligned => 11

end Sys2Proof.Machine
end

