-- ==== Sys2Proof/Machine/Ops.lean ====
section
/-! DEFINITION. The shared operations: fault entry and the way out of it, the XOR of byte sequences, padding, and the
per-block steps. `c` is the configuration and `w` the command word throughout. -/

namespace Sys2Proof.Machine

/-! ## Fault entry and return (60_exceptions.md R133, R135) -/

/-- `raise F(w)`: `FAULTED <- 1; ERR <- c; FCMD <- w`, and nothing else (R133). There is no handler, vector or saved
program counter, and the state is otherwise as the command's pseudocode left it. -/
def raise (k : FaultKind) (w : CmdWord) (s : State) : State :=
  { s with faulted := true, err := faultCode k, fcmd := w }

/-- The only way out of a fault (R135): `Reset` puts every piece of engine state at its reset value (R42, R140). The host
and its position are no engine state and stay (log 8). -/
def resetEngine (c : Config) (s : State) : State := State.resetWith c s.host

/-! ## Byte sequences (40_bytexor.md R70 to R73) -/

/-- "byte i = a[i] XOR b[i mod len(b)]", with the length of `a` (R70). -/
def xorBytes (a b : Bytes) : Bytes := a.mapIdx fun i x => x ^^^ cyclicByte b i

/-! ## Padding (41_padding.md R80 to R82) -/

/-- `pad_len = bs - (len mod bs)`, used with `bs >= 1` (R80). -/
def padLen (bs len : Nat) : Nat := bs - len % bs

/-- `B[rd] ++ rep(pad_len, pad_len)`: `pad_len` bytes each equal to `pad_len` (R80, R110). -/
def padded (bs : Nat) (b : Bytes) : Bytes := b ++ rep (BitVec.ofNat 8 (padLen bs b.length)) (padLen bs b.length)

/-- The unpad of R81, also the last step of R111: `EmptyBuffer` without a last byte, `PadUnderflow` when the last byte
exceeds the length, else that many bytes are cut. No padding byte is validated (90_conflicts.md C3). -/
def cutPadding (w : CmdWord) (rd : Slot) (s : State) : State :=
  match lastByte? (s.buf rd) with
  | none => raise .emptyBuffer w s
  | some n =>
    if n.toNat > s.len rd then raise .padUnderflow w s
    else s.setBuf rd ((s.buf rd).take (s.len rd - n.toNat))

/-! ## Per-block steps (42_ciphermode_block.md R94, R95, R97, R98) -/

/-- `EncBlock_ECB(s, off)` (R94). -/
def encBlockEcb (c : Config) (sl : Slot) (off : Nat) (s : State) : State :=
  memWrite s sl off (c.primEnc s.key (memRead s sl off c.BS))

/-- `EncBlock_CBC(s, off)` (R95): the block XORed with the current mask, encrypted, and the current mask becomes the
ciphertext; `MASK_I` and the other mask stay (90_conflicts.md C5). -/
def encBlockCbc (c : Config) (sl : Slot) (off : Nat) (s : State) : State :=
  let x := xorBytes (memRead s sl off c.BS) s.curMask
  let y := c.primEnc s.key x
  (memWrite s sl off y).setMask s.maskI y

/-- `DecBlock_ECB(s, off)` (R97). -/
def decBlockEcb (c : Config) (sl : Slot) (off : Nat) (s : State) : State :=
  memWrite s sl off (c.primDec s.key (memRead s sl off c.BS))

/-- `DecBlock_CBC(s, off)` (R98): the incoming ciphertext is saved into the next mask, the block is decrypted and XORed
with the current mask, and the roles are swapped. -/
def decBlockCbc (c : Config) (sl : Slot) (off : Nat) (s : State) : State :=
  let blk := memRead s sl off c.BS
  let x := xorBytes (c.primDec s.key blk) s.curMask
  let saved := s.setMask (otherMask s.maskI) blk
  { memWrite saved sl off x with maskI := otherMask s.maskI }

/-- The variant's `encrypt_block`, chosen by `MODE` (R93); every caller has tested `MODE != NONE`. -/
def encBlock (c : Config) (sl : Slot) (off : Nat) (s : State) : State :=
  match s.mode with
  | .none => s
  | .ecb => encBlockEcb c sl off s
  | .cbc => encBlockCbc c sl off s

/-- The variant's `decrypt_block`, chosen by `MODE` (R96); every caller has tested `MODE != NONE`. -/
def decBlock (c : Config) (sl : Slot) (off : Nat) (s : State) : State :=
  match s.mode with
  | .none => s
  | .ecb => decBlockEcb c sl off s
  | .cbc => decBlockCbc c sl off s

/-- "for k in 0 .. n-1, in increasing k": the encryption of the first `n` chunks, chunk 0 first (R110, R43). -/
def encChunks (c : Config) (sl : Slot) : Nat → State → State
  | 0, s => s
  | n + 1, s => encBlock c sl (chunkOffset c n) (encChunks c sl n s)

/-- "for k in 0 .. n-1, in increasing k": the decryption of the first `n` chunks, chunk 0 first (R111, R43). -/
def decChunks (c : Config) (sl : Slot) : Nat → State → State
  | 0, s => s
  | n + 1, s => decBlock c sl (chunkOffset c n) (decChunks c sl n s)

end Sys2Proof.Machine
end

