-- ==== Sys2Proof/Machine/ByteXor.lean ====
section
/-! DEFINITION. The ByteXor family: XOR and XORI (40_bytexor.md R70, R71). -/

namespace Sys2Proof.Machine

/-- The rule of `XOR rd, ra, rb` (R70): both sources are read before the destination is written (R47). -/
def xorRule (w : CmdWord) (rd ra rb : Slot) (s : State) : State :=
  if s.len rb = 0 then raise .emptyKey w s
  else s.setBuf rd (xorBytes (s.buf ra) (s.buf rb))

/-- The rule of `XORI rd, rb` (R71). -/
def xoriRule (w : CmdWord) (rd rb : Slot) (s : State) : State :=
  if s.len rb = 0 then raise .emptyKey w s
  else s.setBuf rd (xorBytes (s.buf rd) (s.buf rb))

/-- `XOR rd, ra, rb` (R70). -/
def execXor (rd ra rb : Slot) (s : State) : Host.Outcome State Fault Refusal :=
  .next (xorRule (encode (.xor rd ra rb)) rd ra rb s)

/-- `XORI rd, rb` (R71). -/
def execXori (rd rb : Slot) (s : State) : Host.Outcome State Fault Refusal :=
  .next (xoriRule (encode (.xori rd rb)) rd rb s)

end Sys2Proof.Machine
end

