-- ==== Sys2Proof/Machine/CipherBlock.lean ====
section
/-! DEFINITION. The CipherMode family, block level: ECBNEW, CBCNEW, BLKSZ, ENCB, DECB (42_ciphermode_block.md). -/

namespace Sys2Proof.Machine

/-- The rule of `ECBNEW ra` (R90): a context that exists is replaced, the masks and `MASK_I` are cleared. -/
def ecbnewRule (c : Config) (w : CmdWord) (ra : Slot) (s : State) : State :=
  if s.len ra ≠ c.KL then raise .keyLength w s
  else { s with key := s.buf ra, mode := .ecb, mask0 := zeros c.BS, mask1 := zeros c.BS, maskI := 0 }

/-- The rule of `CBCNEW ra, rb` (R91): `KeyLength` is tested before `IvLength`, both before any write. -/
def cbcnewRule (c : Config) (w : CmdWord) (ra rb : Slot) (s : State) : State :=
  if s.len ra ≠ c.KL then raise .keyLength w s
  else if s.len rb ≠ c.BS then raise .ivLength w s
  else { s with key := s.buf ra, mode := .cbc, maskI := 0, mask0 := s.buf rb, mask1 := zeros c.BS }

/-- The rule of `BLKSZ` (R92). -/
def blkszRule (c : Config) (w : CmdWord) (s : State) : State :=
  if s.mode = .none then raise .noMode w s
  else { s with res := c.BS }

/-- The rule of `ENCB rd` (R93). -/
def encbRule (c : Config) (w : CmdWord) (rd : Slot) (s : State) : State :=
  if s.mode = .none then raise .noMode w s
  else if s.len rd ≠ c.BS then raise .blockLength w s
  else encBlock c rd 0 s

/-- The rule of `DECB rd` (R96). -/
def decbRule (c : Config) (w : CmdWord) (rd : Slot) (s : State) : State :=
  if s.mode = .none then raise .noMode w s
  else if s.len rd ≠ c.BS then raise .blockLength w s
  else decBlock c rd 0 s

/-- `ECBNEW ra` (R90). -/
def execEcbnew (ra : Slot) (s : State) : Host.Outcome State Fault Refusal :=
  .next (ecbnewRule Config.impl (encode (.ecbnew ra)) ra s)

/-- `CBCNEW ra, rb` (R91). -/
def execCbcnew (ra rb : Slot) (s : State) : Host.Outcome State Fault Refusal :=
  .next (cbcnewRule Config.impl (encode (.cbcnew ra rb)) ra rb s)

/-- `BLKSZ` (R92). -/
def execBlksz (s : State) : Host.Outcome State Fault Refusal :=
  .next (blkszRule Config.impl (encode .blksz) s)

/-- `ENCB rd` (R93). -/
def execEncb (rd : Slot) (s : State) : Host.Outcome State Fault Refusal :=
  .next (encbRule Config.impl (encode (.encb rd)) rd s)

/-- `DECB rd` (R96). -/
def execDecb (rd : Slot) (s : State) : Host.Outcome State Fault Refusal :=
  .next (decbRule Config.impl (encode (.decb rd)) rd s)

end Sys2Proof.Machine
end

