-- ==== Sys2Proof/Machine/CipherBuffer.lean ====
section
/-! DEFINITION. The CipherMode family, whole-buffer level: ENC and DEC (43_ciphermode_buffer.md R110, R111). Each is one
step: the chunk index and the phase are not architectural state (R115). -/

namespace Sys2Proof.Machine

/-- The rule of `ENC rd` (R110): pad with `BS`, then the block step on every chunk in order. -/
def encRule (c : Config) (w : CmdWord) (rd : Slot) (s : State) : State :=
  if s.mode = .none then raise .noMode w s
  else if c.fits (s.len rd + padLen c.BS (s.len rd)) then
    let p := s.setBuf rd (padded c.BS (s.buf rd))
    encChunks c rd (p.len rd / c.BS) p
  else raise .capacity w s

/-- The rule of `DEC rd` (R111): the block step on every chunk in order, then the unpad, whose `PadUnderflow` is raised
after the chunks have been decrypted. -/
def decRule (c : Config) (w : CmdWord) (rd : Slot) (s : State) : State :=
  if s.mode = .none then raise .noMode w s
  else if s.len rd % c.BS ≠ 0 then raise .misaligned w s
  else if s.len rd = 0 then raise .emptyBuffer w s
  else cutPadding w rd (decChunks c rd (s.len rd / c.BS) s)

/-- `ENC rd` (R110). -/
def execEnc (rd : Slot) (s : State) : Host.Outcome State Fault Refusal :=
  .next (encRule Config.impl (encode (.enc rd)) rd s)

/-- `DEC rd` (R111). -/
def execDec (rd : Slot) (s : State) : Host.Outcome State Fault Refusal :=
  .next (decRule Config.impl (encode (.dec rd)) rd s)

end Sys2Proof.Machine
end

