-- ==== Sys2Proof/Machine/Padding.lean ====
section
/-! DEFINITION. The Padding family: PAD and UNPAD (41_padding.md R80, R81). -/

namespace Sys2Proof.Machine

/-- The rule of `PAD rd, imm8` (R80): the block size is the immediate; `MODE` and `BS` are not read. -/
def padRule (c : Config) (w : CmdWord) (rd : Slot) (imm8 : BitVec 8) (s : State) : State :=
  let bs := immValue imm8
  if bs = 0 then raise .zeroBlockSize w s
  else if c.fits (s.len rd + padLen bs (s.len rd)) then s.setBuf rd (padded bs (s.buf rd))
  else raise .capacity w s

/-- The rule of `UNPAD rd` (R81). -/
def unpadRule (w : CmdWord) (rd : Slot) (s : State) : State := cutPadding w rd s

/-- `PAD rd, imm8` (R80). -/
def execPad (rd : Slot) (imm8 : BitVec 8) (s : State) : Host.Outcome State Fault Refusal :=
  .next (padRule Config.impl (encode (.pad rd imm8)) rd imm8 s)

/-- `UNPAD rd` (R81). -/
def execUnpad (rd : Slot) (s : State) : Host.Outcome State Fault Refusal :=
  .next (unpadRule (encode (.unpad rd)) rd s)

end Sys2Proof.Machine
end

