-- ==== Sys2Proof/Machine/Dispatch.lean ====
section
/-! DEFINITION. One arm per command (30_encoding.md R54). -/

namespace Sys2Proof.Machine

def exec (i : Instr) (s : State) : Host.Outcome State Fault Refusal :=
  match i with
  | .xor rd ra rb => Sys2Proof.Machine.execXor rd ra rb s
  | .xori rd rb => Sys2Proof.Machine.execXori rd rb s
  | .pad rd imm8 => Sys2Proof.Machine.execPad rd imm8 s
  | .unpad rd => Sys2Proof.Machine.execUnpad rd s
  | .ecbnew ra => Sys2Proof.Machine.execEcbnew ra s
  | .cbcnew ra rb => Sys2Proof.Machine.execCbcnew ra rb s
  | .blksz => Sys2Proof.Machine.execBlksz s
  | .encb rd => Sys2Proof.Machine.execEncb rd s
  | .decb rd => Sys2Proof.Machine.execDecb rd s
  | .enc rd => Sys2Proof.Machine.execEnc rd s
  | .dec rd => Sys2Proof.Machine.execDec rd s

end Sys2Proof.Machine
end

