-- ==== Sys2Proof/Machine/HostPort.lean ====
section
/-! DEFINITION. The five host transactions (20_memory.md R38 to R42), each on a state whose host has already made the move. -/

namespace Sys2Proof.Machine

/-- Whether the move `m` is one the host has in the state `s`: a `HostWrite` that would be refused is none (R38). -/
def allowed (c : Config) (s : State) (m : HostMove) : Bool := m.wf c s.faulted

/-- The moves still to come, the next one first: writes that would be refused now are passed over, because a model gives
them no move (R38, log 7). -/
def pending (c : Config) (s : State) : List HostMove := s.host.moves.dropWhile fun m => !allowed c s m

/-- No move is left to make: the engine is idle and all its state survives (R139; log 5). -/
def idle (s : State) : State := { s with host := { s.host with moves := [] } }

/-- The host makes its next move: the move is gone from its list, and nothing has been returned yet (log 3, log 4). -/
def takeMove (rest : List HostMove) (s : State) : State :=
  { s with host := { s.host with moves := rest, reply := .nothing } }

/-- The host issues its next word: also "after each `Issue` it is `pc + 1`, for every command and whether or not the
command faulted" (R21). -/
def takeIssue (rest : List HostMove) (s : State) : State :=
  { s with host := { moves := rest, pc := s.host.pc + 1, reply := .nothing } }

/-- The transaction returns `r` to the host. -/
def answer (r : HostReply) (s : State) : State := { s with host := { s.host with reply := r } }

/-- `HostWrite(s, v)` (R38): refused, changing nothing, when `FAULTED = 1` or `len(v) > CAP`; `pending` gives such a write no
move. -/
def hostWrite (c : Config) (sl : Slot) (v : Bytes) (s : State) : State :=
  if s.faulted then s
  else if c.fits v.length then s.setBuf sl v
  else s

/-- `HostRead(s)` returns `B[s]` and changes nothing (R39). -/
def hostRead (sl : Slot) (s : State) : State := answer (.bytes (s.buf sl)) s

/-- `HostStatus()` returns `(FAULTED, ERR, FCMD, RES)` and changes nothing (R40). -/
def hostStatus (s : State) : State := answer (.status s.faulted s.err s.fcmd s.res) s

/-- `Reset()` (R42). -/
def hostReset (c : Config) (s : State) : State := resetEngine c s

/-- `Issue(w)` (R41): ignored while `FAULTED = 1` (R134); an illegal word raises `IllegalCommand` before anything else
about it is tested (R55, R121); else the command's rule is executed. -/
def issueWord (w : CmdWord) (s : State) : Host.Outcome State Fault Refusal :=
  if s.faulted then .next s
  else
    match decode w with
    | .command i => exec i s
    | .illegal _ => .next (raise .illegalCommand w s)

/-- The move `m` of the host, carried out by the engine. -/
def makeMove (m : HostMove) (rest : List HostMove) (s : State) : Host.Outcome State Fault Refusal :=
  match m with
  | .write sl v => .next (hostWrite Config.impl sl v (takeMove rest s))
  | .read sl => .next (hostRead sl (takeMove rest s))
  | .status => .next (hostStatus (takeMove rest s))
  | .issue w => issueWord w (takeIssue rest s)
  | .reset => .next (hostReset Config.impl (takeMove rest s))

/-- The word a table row's test gives the host to issue, as its next move (log 3, log 12). -/
def planIssue (w : CmdWord) (s : State) : State :=
  { s with host := { s.host with moves := .issue w :: s.host.moves } }

end Sys2Proof.Machine
end

