-- ==== Sys2Proof/Machine/Step.lean ====
section
/-! DEFINITION. One step of the machine: one transaction of the host (10_state.md R10). The engine has no program counter
and fetches nothing (R21, R45): the command executed is the word the host issues. -/

namespace Sys2Proof.Machine

/-- The host's next move, carried out to its end. With no move to come the engine "is simply idle, and all state survives
idling" (R139, R141; log 5). A `HostWrite` that would be refused is no move (R38; log 7). -/
def step (s : State) : Host.Outcome State Fault Refusal :=
  match pending Config.impl s with
  | [] => .next (idle s)
  | m :: rest => makeMove m rest s

/-- `s` with the host's next move the issue of that word: where `step` takes its next command from (log 3, log 12). -/
def State.withFetchWord (s : State) (nbits w : Nat) : State := planIssue (tableWord nbits w) s

end Sys2Proof.Machine
end

