-- ==== Sys2Proof/Machine/Asm.lean ====
section
/-! DEFINITION. The written form of a command (30_encoding.md R59): a printer and a reader of one line, on lists of characters.
The engine never sees text; nothing of the machine uses this file. -/

namespace Sys2Proof.Machine

/-- `b0`, `b1`, `b2`, `b3` (R59). -/
def slotText : Slot → List Char
  | .b0 => ['b', '0']
  | .b1 => ['b', '1']
  | .b2 => ['b', '2']
  | .b3 => ['b', '3']

/-- One decimal digit. -/
def digitText (d : Nat) : Char := Char.ofNat (48 + d)

/-- An immediate in decimal, without leading zeros; used below 1000 (R59). -/
def decimalText (n : Nat) : List Char :=
  if n < 10 then [digitText n]
  else if n < 100 then [digitText (n / 10), digitText (n % 10)]
  else [digitText (n / 100), digitText (n / 10 % 10), digitText (n % 10)]

/-- One hexadecimal digit, the letters in capitals. -/
def hexDigitText (d : Nat) : Char := if d < 10 then Char.ofNat (48 + d) else Char.ofNat (55 + d)

/-- An immediate "in hexadecimal with `0x`", without leading zeros; used below 256 (R59). -/
def hexText (n : Nat) : List Char :=
  if n < 16 then ['0', 'x', hexDigitText n] else ['0', 'x', hexDigitText (n / 16), hexDigitText (n % 16)]

/-- Operands separated by ", " (R59). -/
def operandsText : List (List Char) → List Char
  | [] => []
  | [o] => o
  | o :: os => o ++ [',', ' '] ++ operandsText os

/-- The mnemonic in capitals (R54, R59). -/
def mnemonicText : Instr → List Char
  | .xor _ _ _ => ['X', 'O', 'R']
  | .xori _ _ => ['X', 'O', 'R', 'I']
  | .pad _ _ => ['P', 'A', 'D']
  | .unpad _ => ['U', 'N', 'P', 'A', 'D']
  | .ecbnew _ => ['E', 'C', 'B', 'N', 'E', 'W']
  | .cbcnew _ _ => ['C', 'B', 'C', 'N', 'E', 'W']
  | .blksz => ['B', 'L', 'K', 'S', 'Z']
  | .encb _ => ['E', 'N', 'C', 'B']
  | .decb _ => ['D', 'E', 'C', 'B']
  | .enc _ => ['E', 'N', 'C']
  | .dec _ => ['D', 'E', 'C']

/-- The operands in the order of R54, the destination first (R59); `immText` writes the immediate. -/
def operandTexts (immText : Nat → List Char) : Instr → List (List Char)
  | .xor rd ra rb => [slotText rd, slotText ra, slotText rb]
  | .xori rd rb => [slotText rd, slotText rb]
  | .pad rd imm8 => [slotText rd, immText imm8.toNat]
  | .unpad rd => [slotText rd]
  | .ecbnew ra => [slotText ra]
  | .cbcnew ra rb => [slotText ra, slotText rb]
  | .blksz => []
  | .encb rd => [slotText rd]
  | .decb rd => [slotText rd]
  | .enc rd => [slotText rd]
  | .dec rd => [slotText rd]

/-- The written form of a command, its immediate written by `immText`. -/
def asmTextWith (immText : Nat → List Char) (i : Instr) : List Char :=
  match operandTexts immText i with
  | [] => mnemonicText i
  | os => mnemonicText i ++ [' '] ++ operandsText os

/-- The written form of a command, its immediate in decimal (R59). -/
def asmText (i : Instr) : List Char := asmTextWith decimalText i

/-- The written form of a command, its immediate in hexadecimal (R59). -/
def asmTextHex (i : Instr) : List Char := asmTextWith hexText i

/-- What one line says. -/
inductive AsmLine where
  /-- Nothing, or only a comment. -/
  | blank
  | command (i : Instr)
  /-- Not a line of R59. -/
  | malformed
deriving DecidableEq, Repr

/-- A slot name. -/
def readSlot? : List Char → Option Slot
  | ['b', '0'] => some .b0
  | ['b', '1'] => some .b1
  | ['b', '2'] => some .b2
  | ['b', '3'] => some .b3
  | _ => none

/-- The value of a digit in base 16. -/
def digitValue? (ch : Char) : Option Nat :=
  if 48 ≤ ch.toNat ∧ ch.toNat ≤ 57 then some (ch.toNat - 48)
  else if 97 ≤ ch.toNat ∧ ch.toNat ≤ 102 then some (ch.toNat - 87)
  else if 65 ≤ ch.toNat ∧ ch.toNat ≤ 70 then some (ch.toNat - 55)
  else none

/-- Digits in a base, most significant first, after a value already read. -/
def readDigits? (base : Nat) : Nat → List Char → Option Nat
  | acc, [] => some acc
  | acc, ch :: cs =>
    match digitValue? ch with
    | some d => if d < base then readDigits? base (acc * base + d) cs else none
    | none => none

/-- The immediate, "in decimal, or in hexadecimal with `0x`" (R59), when it can be encoded (R53). -/
def readImm? : List Char → Option (BitVec 8)
  | [] => none
  | ['0', 'x'] => none
  | '0' :: 'x' :: ds => (readDigits? 16 0 ds).bind immOfNum?
  | ds => (readDigits? 10 0 ds).bind immOfNum?

/-- The operands of a line, separated by ", ". -/
def splitOperands : List Char → List (List Char)
  | [] => [[]]
  | ',' :: ' ' :: cs => [] :: splitOperands cs
  | ch :: cs =>
    match splitOperands cs with
    | [] => [[ch]]
    | o :: os => (ch :: o) :: os

/-- Blanks at both ends removed. -/
def trimBlanks (cs : List Char) : List Char :=
  ((cs.dropWhile (· == ' ')).reverse.dropWhile (· == ' ')).reverse

/-- A command from its mnemonic and its operands. -/
def readCommand? (mnemonic : List Char) (operands : List (List Char)) : Option Instr :=
  match mnemonic, operands with
  | ['X', 'O', 'R'], [rd, ra, rb] => do some (.xor (← readSlot? rd) (← readSlot? ra) (← readSlot? rb))
  | ['X', 'O', 'R', 'I'], [rd, rb] => do some (.xori (← readSlot? rd) (← readSlot? rb))
  | ['P', 'A', 'D'], [rd, imm8] => do some (.pad (← readSlot? rd) (← readImm? imm8))
  | ['U', 'N', 'P', 'A', 'D'], [rd] => do some (.unpad (← readSlot? rd))
  | ['E', 'C', 'B', 'N', 'E', 'W'], [ra] => do some (.ecbnew (← readSlot? ra))
  | ['C', 'B', 'C', 'N', 'E', 'W'], [ra, rb] => do some (.cbcnew (← readSlot? ra) (← readSlot? rb))
  | ['B', 'L', 'K', 'S', 'Z'], [] => some .blksz
  | ['E', 'N', 'C', 'B'], [rd] => do some (.encb (← readSlot? rd))
  | ['D', 'E', 'C', 'B'], [rd] => do some (.decb (← readSlot? rd))
  | ['E', 'N', 'C'], [rd] => do some (.enc (← readSlot? rd))
  | ['D', 'E', 'C'], [rd] => do some (.dec (← readSlot? rd))
  | _, _ => none

/-- One line: "One command per line; `;` starts a comment" (R59). -/
def readLine (line : List Char) : AsmLine :=
  match trimBlanks (line.takeWhile (· != ';')) with
  | [] => .blank
  | code =>
    let mnemonic := code.takeWhile (· != ' ')
    let operands :=
      match code.dropWhile (· != ' ') with
      | [] => []
      | rest => splitOperands (trimBlanks rest)
    match readCommand? mnemonic operands with
    | some i => .command i
    | none => .malformed

end Sys2Proof.Machine
end

