-- ==== Sys2Proof/Safety.lean ====
section
/-! DEFINITION. The terms claims use: the invariant of reachable states, the final states of a run, frames, and the
chaining modes of 42_ciphermode_block.md R99 as functions on lists of blocks. No definition of the machine uses these. -/

namespace Sys2Proof.Machine

/-! ## Reachable and final states -/

/-- What holds of every reachable state of an engine with configuration `c`. -/
structure State.Inv (c : Config) (s : State) : Prop where
  /-- "0 <= LEN[s] <= CAP" (R12). -/
  slots : ∀ sl, c.fits (s.len sl) = true
  /-- "len(KEY) = KL" (R18). -/
  key : s.key.length = c.KL
  /-- "mask length always equals block size" (R18). -/
  mask0 : s.mask0.length = c.BS
  /-- "mask length always equals block size" (R18). -/
  mask1 : s.mask1.length = c.BS
  /-- "a natural number no larger than 255" (R20). -/
  res : s.res ≤ 255
  /-- "FAULTED = 0, ERR = 0"; FCMD "is 0 while FAULTED = 0" (R19, R20). -/
  noFault : s.faulted = false → s.err = 0 ∧ s.fcmd = 0
  /-- "Codes 12 to 15 are never stored" and 0 means no fault (R120). -/
  code : s.faulted = true → 1 ≤ s.err.toNat ∧ s.err.toNat ≤ 11
  /-- With no context constructed the context and `RES` are as reset left them (R14 to R17, R20, R24). -/
  unconstructed : s.mode = .none →
    s.key = zeros c.KL ∧ s.mask0 = zeros c.BS ∧ s.mask1 = zeros c.BS ∧ s.maskI = 0 ∧ s.res = 0

/-- The host has no move left and no fault has been raised: a faulted state "is never a final state of a run" (R21, R134). -/
def State.final (s : State) : Bool := (pending Config.impl s).isEmpty && !s.faulted

/-- The "Raised by" column of R120: which words can have raised which code. -/
def mayRaise (code : BitVec 4) (d : Decoded) : Bool :=
  match d with
  | .illegal _ => code == 1
  | .command i =>
    match i with
    | .xor _ _ _ => code == 2
    | .xori _ _ => code == 2
    | .pad _ _ => code == 3 || code == 4
    | .unpad _ => code == 5 || code == 6
    | .ecbnew _ => code == 8
    | .cbcnew _ _ => code == 8 || code == 9
    | .blksz => code == 7
    | .encb _ => code == 7 || code == 10
    | .decb _ => code == 7 || code == 10
    | .enc _ => code == 7 || code == 4
    | .dec _ => code == 7 || code == 11 || code == 5 || code == 6

/-! ## Frames -/

/-- Every byte of every slot but `rd` reads as before, and no length but `rd`'s changes. -/
def SameSlotsBut (rd : Slot) (s t : State) : Prop :=
  ∀ sl, sl ≠ rd → t.len sl = s.len sl ∧ ∀ off, t.byteAt sl off = s.byteAt sl off

/-- Every byte of every slot reads as before and no length changes. -/
def SameSlots (s t : State) : Prop := ∀ sl, t.len sl = s.len sl ∧ ∀ off, t.byteAt sl off = s.byteAt sl off

/-- The context registers MODE, KEY, MASK[0], MASK[1], MASK_I are unchanged. -/
def SameContext (s t : State) : Prop :=
  t.mode = s.mode ∧ t.key = s.key ∧ t.mask0 = s.mask0 ∧ t.mask1 = s.mask1 ∧ t.maskI = s.maskI

/-- The status registers FAULTED, ERR, FCMD are unchanged. -/
def SameStatus (s t : State) : Prop := t.faulted = s.faulted ∧ t.err = s.err ∧ t.fcmd = s.fcmd

/-- A command has written slot `rd` and nothing else. -/
def OnlySlot (rd : Slot) (s t : State) : Prop :=
  SameSlotsBut rd s t ∧ SameContext s t ∧ SameStatus s t ∧ t.res = s.res ∧ t.host = s.host

/-- A command has raised code `e` and changed nothing else (R133). -/
def OnlyRaised (e : BitVec 4) (w : CmdWord) (s t : State) : Prop :=
  t.faulted = true ∧ t.err = e ∧ t.fcmd = w ∧
    SameSlots s t ∧ SameContext s t ∧ t.res = s.res ∧ t.host = s.host

/-- Every register of the engine is as before; the host is not looked at. -/
def SameEngine (s t : State) : Prop :=
  SameSlots s t ∧ SameContext s t ∧ SameStatus s t ∧ t.res = s.res

/-- Two states that differ at most in the next mask `MASK[1 - MASK_I]` (R22). -/
def AgreeButNextMask (s t : State) : Prop :=
  t.mem = s.mem ∧ t.mode = s.mode ∧ t.key = s.key ∧ t.maskI = s.maskI ∧ t.curMask = s.curMask ∧
    t.faulted = s.faulted ∧ t.err = s.err ∧ t.fcmd = s.fcmd ∧ t.res = s.res ∧ t.host = s.host

/-! ## The chaining modes on lists of blocks (R99) -/

/-- Bytewise `a ^ b` of two blocks (R99). -/
def xorBlock (a b : Bytes) : Bytes := List.zipWith (· ^^^ ·) a b

/-- Chunk `k`: bytes `k*BS .. (k+1)*BS - 1` (00_scope.md section 5). -/
def chunk (c : Config) (b : Bytes) (k : Nat) : Bytes := (b.drop (k * c.BS)).take c.BS

/-- The consecutive non-overlapping chunks of a buffer, in order. -/
def chunks (c : Config) (b : Bytes) : List Bytes := (List.range (b.length / c.BS)).map (chunk c b)

/-- CBC encryption of a list of blocks from the current mask `cur`: each output is `PrimEnc(KEY, b ^ cur)` and becomes the
next `cur` (R99). -/
def cbcCipher (c : Config) (key : Bytes) : Bytes → List Bytes → List Bytes
  | _, [] => []
  | cur, b :: bs => c.primEnc key (xorBlock b cur) :: cbcCipher c key (c.primEnc key (xorBlock b cur)) bs

/-- CBC decryption of a list of blocks from the current mask `cur`: each output is `PrimDec(KEY, b) ^ cur`, and the
ciphertext block `b` becomes the next `cur` (R99). -/
def cbcPlain (c : Config) (key : Bytes) : Bytes → List Bytes → List Bytes
  | _, [] => []
  | cur, b :: bs => xorBlock (c.primDec key b) cur :: cbcPlain c key b bs

/-- What `MODE` makes of a list of plaintext blocks; ECB is "the machine with no state" (R99). -/
def cipherBlocks (c : Config) (s : State) (bs : List Bytes) : List Bytes :=
  match s.mode with
  | .none => bs
  | .ecb => bs.map (c.primEnc s.key)
  | .cbc => cbcCipher c s.key s.curMask bs

/-- What `MODE` makes of a list of ciphertext blocks (R99). -/
def plainBlocks (c : Config) (s : State) (bs : List Bytes) : List Bytes :=
  match s.mode with
  | .none => bs
  | .ecb => bs.map (c.primDec s.key)
  | .cbc => cbcPlain c s.key s.curMask bs

/-- The decrypted, not yet truncated content of slot `rd` (R111, step 1). -/
def decrypted (c : Config) (s : State) (rd : Slot) : Bytes := (plainBlocks c s (chunks c (s.buf rd))).flatten

/-- `B[rd]` followed by the padding of R80 for block size `bs`. -/
def withPadding (bs : Nat) (b : Bytes) : Bytes :=
  b ++ List.replicate (bs - b.length % bs) (BitVec.ofNat 8 (bs - b.length % bs))

/-! ## Whole-buffer commands by hand (R112) -/

/-- `b` with chunk `k` replaced by `v`. -/
def withChunk (c : Config) (b : Bytes) (k : Nat) (v : Bytes) : Bytes :=
  b.take (k * c.BS) ++ v ++ b.drop ((k + 1) * c.BS)

/-- "move chunk `k` to a free slot by `HostRead`/`HostWrite`, `ENCB` it, and move it back" (R112). -/
def encChunkByHand (c : Config) (rd free : Slot) (s : State) (k : Nat) : State :=
  let out := hostWrite c free (chunk c (s.buf rd) k) s
  let done := encbRule c (encode (.encb free)) free out
  hostWrite c rd (withChunk c (done.buf rd) k (done.buf free)) done

/-- "for each chunk in order, move it out, `DECB` it, move it back" (R112). -/
def decChunkByHand (c : Config) (rd free : Slot) (s : State) (k : Nat) : State :=
  let out := hostWrite c free (chunk c (s.buf rd) k) s
  let done := decbRule c (encode (.decb free)) free out
  hostWrite c rd (withChunk c (done.buf rd) k (done.buf free)) done

end Sys2Proof.Machine
end

