-- ==== Sys2Proof/Certificates/Slice0/Obligations.lean ====
section
/-! DEFINITION. The statements about the machine, from the numbered rules of spec/. `s` is the state before, `t` the state
after; a rule's tests are written in the order of 60_exceptions.md R132. -/

open Sys2Proof Sys2Proof.Machine

/-! ## Encoding (30_encoding.md) -/

/-- R61: the eleven formulas of the encoding function. -/
def Obligations.EncodingIsTheSumOfItsFields : Prop :=
  ∀ (rd ra rb : Slot) (imm8 : BitVec 8),
    (encode (.xor rd ra rb)).toNat = 0x1000 + rd.num * 0x400 + ra.num * 0x100 + rb.num * 0x40 ∧
    (encode (.xori rd rb)).toNat = 0x2000 + rd.num * 0x400 + rb.num * 0x40 ∧
    (encode (.pad rd imm8)).toNat = 0x3000 + rd.num * 0x400 + imm8.toNat ∧
    (encode (.unpad rd)).toNat = 0x4000 + rd.num * 0x400 ∧
    (encode (.ecbnew ra)).toNat = 0x5000 + ra.num * 0x100 ∧
    (encode (.cbcnew ra rb)).toNat = 0x6000 + ra.num * 0x100 + rb.num * 0x40 ∧
    (encode .blksz).toNat = 0x7000 ∧
    (encode (.encb rd)).toNat = 0x8000 + rd.num * 0x400 ∧
    (encode (.decb rd)).toNat = 0x9000 + rd.num * 0x400 ∧
    (encode (.enc rd)).toNat = 0xA000 + rd.num * 0x400 ∧
    (encode (.dec rd)).toNat = 0xB000 + rd.num * 0x400

/-- R61: decoding undoes encoding, for every command and every value of its operands. -/
def Obligations.DecodeOfEncodeIsTheCommand : Prop :=
  ∀ i : Instr, i.wf = true → decode (encode i) = .command i

/-- R55, R61: each legal word has one meaning, and it is the word of that command: no bit of a legal word is dropped. -/
def Obligations.EncodeOfDecodeIsTheWord : Prop :=
  ∀ (w : CmdWord) (i : Instr), decode w = .command i → encode i = w

/-- R54: "a word `w` is the command exactly when `(w AND mask) = match`", for the eleven rows. -/
def Obligations.WordIsTheCommandExactlyOnItsRow : Prop :=
  ∀ w : CmdWord,
    ((∃ rd ra rb, decode w = .command (.xor rd ra rb)) ↔ w &&& 0xF03F = 0x1000) ∧
    ((∃ rd rb, decode w = .command (.xori rd rb)) ↔ w &&& 0xF33F = 0x2000) ∧
    ((∃ rd imm8, decode w = .command (.pad rd imm8)) ↔ w &&& 0xF300 = 0x3000) ∧
    ((∃ rd, decode w = .command (.unpad rd)) ↔ w &&& 0xF3FF = 0x4000) ∧
    ((∃ ra, decode w = .command (.ecbnew ra)) ↔ w &&& 0xFCFF = 0x5000) ∧
    ((∃ ra rb, decode w = .command (.cbcnew ra rb)) ↔ w &&& 0xFC3F = 0x6000) ∧
    (decode w = .command .blksz ↔ w &&& 0xFFFF = 0x7000) ∧
    ((∃ rd, decode w = .command (.encb rd)) ↔ w &&& 0xF3FF = 0x8000) ∧
    ((∃ rd, decode w = .command (.decb rd)) ↔ w &&& 0xF3FF = 0x9000) ∧
    ((∃ rd, decode w = .command (.enc rd)) ↔ w &&& 0xF3FF = 0xA000) ∧
    ((∃ rd, decode w = .command (.dec rd)) ↔ w &&& 0xF3FF = 0xB000)

/-- R51, R53: the operands of a decoded command are the numbers its fields hold. -/
def Obligations.DecodedOperandsAreTheFields : Prop :=
  ∀ (w : CmdWord) (i : Instr), decode w = .command i →
    match i with
    | .xor rd ra rb => rd.num = w.toNat / 0x400 % 4 ∧ ra.num = w.toNat / 0x100 % 4 ∧ rb.num = w.toNat / 0x40 % 4
    | .xori rd rb => rd.num = w.toNat / 0x400 % 4 ∧ rb.num = w.toNat / 0x40 % 4
    | .pad rd imm8 => rd.num = w.toNat / 0x400 % 4 ∧ imm8.toNat = w.toNat % 0x100
    | .unpad rd => rd.num = w.toNat / 0x400 % 4
    | .ecbnew ra => ra.num = w.toNat / 0x100 % 4
    | .cbcnew ra rb => ra.num = w.toNat / 0x100 % 4 ∧ rb.num = w.toNat / 0x40 % 4
    | .blksz => w = 0x7000
    | .encb rd => rd.num = w.toNat / 0x400 % 4
    | .decb rd => rd.num = w.toNat / 0x400 % 4
    | .enc rd => rd.num = w.toNat / 0x400 % 4
    | .dec rd => rd.num = w.toNat / 0x400 % 4

/-- R56: every word with a reserved `op` is illegal, 0x0000 and 0xFFFF among them. -/
def Obligations.ReservedOpWordsAreIllegal : Prop :=
  (∀ w : CmdWord, w.toNat / 0x1000 = 0 ∨ 0xC ≤ w.toNat / 0x1000 → decode w = .illegal .reservedOp) ∧
    decode 0x0000 = .illegal .reservedOp ∧ decode 0xFFFF = .illegal .reservedOp

/-- R57 with R52: an assigned `op` with a 1 in a must-be-zero bit of its format is illegal, not the command with that bit
ignored. -/
def Obligations.MustBeZeroBitsMakeAWordIllegal : Prop :=
  ∀ w : CmdWord,
    (match w.toNat / 0x1000 with
      | 0x1 => w &&& 0x003F ≠ 0
      | 0x2 => w &&& 0x033F ≠ 0
      | 0x3 => w &&& 0x0300 ≠ 0
      | 0x4 => w &&& 0x03FF ≠ 0
      | 0x5 => w &&& 0x0CFF ≠ 0
      | 0x6 => w &&& 0x0C3F ≠ 0
      | 0x7 => w &&& 0x0FFF ≠ 0
      | 0x8 => w &&& 0x03FF ≠ 0
      | 0x9 => w &&& 0x03FF ≠ 0
      | 0xA => w &&& 0x03FF ≠ 0
      | 0xB => w &&& 0x03FF ≠ 0
      | _ => False) →
    decode w = .illegal .mustBeZeroBit

/-- 95_test_vectors.md section 3: words written out there, one of every family. -/
def Obligations.SampleWordsDecode : Prop :=
  decode 0x1840 = .command (.xor .b2 .b0 .b1) ∧
  decode 0x2840 = .command (.xori .b2 .b1) ∧
  decode 0x3CFF = .command (.pad .b3 255) ∧
  decode 0x6180 = .command (.cbcnew .b1 .b2) ∧
  decode 0xAC00 = .command (.enc .b3)

/-- R59: the written form of every command reads back as that command, with its immediate in decimal or "in hexadecimal with
`0x`", and with any comment after a `;`; a line that is only a comment is no command. The letters of a hexadecimal immediate
are printed in capitals (log 17). -/
def Obligations.WrittenFormReadsBack : Prop :=
  ∀ (i : Instr) (comment : List Char),
    readLine (asmText i) = .command i ∧ readLine (asmTextHex i) = .command i ∧
    readLine (asmText i ++ ' ' :: ';' :: comment) = .command i ∧
    readLine (asmTextHex i ++ ' ' :: ';' :: comment) = .command i ∧
    readLine (';' :: comment) = .blank

/-! ## The step and the host's transactions (10_state.md, 20_memory.md) -/

/-- R41: an unfaulted engine runs the command that the issued word decodes to; around it, the move is gone from the host's
list and its position has grown by one (R21). The list is the model's own field (log 3). -/
def Obligations.StepRunsTheDecodedCommand : Prop :=
  ∀ (s : State) (w : CmdWord) (i : Instr) (rest : List HostMove),
    s.host.moves = .issue w :: rest → s.faulted = false → i.wf = true → decode w = .command i →
    step s = exec i { s with host := ⟨rest, s.host.pc + 1, .nothing⟩ }

/-- R121: an issued word that "matches no row of 30_encoding.md rule R54" raises `IllegalCommand`, and nothing else
happens. -/
def Obligations.IllegalWordRaisesIllegalCommand : Prop :=
  ∀ (s : State) (w : CmdWord) (rest : List HostMove),
    s.host.moves = .issue w :: rest → s.faulted = false →
    w &&& 0xF03F ≠ 0x1000 → w &&& 0xF33F ≠ 0x2000 → w &&& 0xF300 ≠ 0x3000 → w &&& 0xF3FF ≠ 0x4000 →
    w &&& 0xFCFF ≠ 0x5000 → w &&& 0xFC3F ≠ 0x6000 → w &&& 0xFFFF ≠ 0x7000 → w &&& 0xF3FF ≠ 0x8000 →
    w &&& 0xF3FF ≠ 0x9000 → w &&& 0xF3FF ≠ 0xA000 → w &&& 0xF3FF ≠ 0xB000 →
    ∃ t, step s = .next t ∧ OnlyRaised 1 w { s with host := ⟨rest, s.host.pc + 1, .nothing⟩ } t

/-- R134: while `FAULTED = 1`, `Issue` is ignored and `HostWrite` refused, for every word and content; `HostRead`,
`HostStatus` and `Reset` work. That the host has a list of moves is log 3, that an answer stands in `reply` log 4, that a
refused write is passed over as no move log 7, and that `Reset` leaves the list and the position log 8. -/
def Obligations.FaultedEngineOnlyAnswersAndResets : Prop :=
  ∀ (s : State) (m : HostMove) (rest : List HostMove), s.host.moves = m :: rest → s.faulted = true →
    match m with
    | .issue _ => ∃ t, step s = .next t ∧ SameEngine s t ∧ t.host = ⟨rest, s.host.pc + 1, .nothing⟩
    | .write _ _ => step s = step { s with host := { s.host with moves := rest } }
    | .read sl => ∃ t, step s = .next t ∧ SameEngine s t ∧ t.host = ⟨rest, s.host.pc, .bytes (s.buf sl)⟩
    | .status => ∃ t, step s = .next t ∧ SameEngine s t ∧ t.host = ⟨rest, s.host.pc, .status true s.err s.fcmd s.res⟩
    | .reset => ∃ t, step s = .next t ∧ t.faulted = false ∧ t.err = 0 ∧ t.fcmd = 0 ∧ t.host = ⟨rest, s.host.pc, .nothing⟩

/-- R38: `HostWrite` replaces the whole slot when `FAULTED = 0` and the content fits. Otherwise it is refused: "a model gives
it no move", so the step is the one the host's later moves give, as if the write were not in its list (log 3, log 7). -/
def Obligations.HostWriteReplacesTheSlotOrIsRefused : Prop :=
  ∀ (s : State) (sl : Slot) (v : Bytes) (rest : List HostMove), s.host.moves = .write sl v :: rest →
    if s.faulted = false ∧ Config.impl.fits v.length = true then
      ∃ t, step s = .next t ∧ t.host = ⟨rest, s.host.pc, .nothing⟩ ∧
        t.buf sl = v ∧ t.len sl = v.length ∧ SameSlotsBut sl s t ∧ SameContext s t ∧ SameStatus s t ∧ t.res = s.res
    else step s = step { s with host := { s.host with moves := rest } }

/-- R39: `HostRead` returns all bytes of the slot and changes nothing, in every state. What a transaction returned stands in
the host's `reply` (log 4). -/
def Obligations.HostReadReturnsTheSlot : Prop :=
  ∀ (s : State) (sl : Slot) (rest : List HostMove), s.host.moves = .read sl :: rest →
    ∃ t, step s = .next t ∧ t.host = ⟨rest, s.host.pc, .bytes (s.buf sl)⟩ ∧ SameEngine s t

/-- R40: `HostStatus` returns `(FAULTED, ERR, FCMD, RES)` and changes nothing, in every state; and no transaction lets the
host read MODE, KEY or a mask: what it returns is the same whatever they hold. -/
def Obligations.HostStatusReturnsTheStatusTuple : Prop :=
  (∀ (s : State) (rest : List HostMove), s.host.moves = .status :: rest →
    ∃ t, step s = .next t ∧ t.host = ⟨rest, s.host.pc, .status s.faulted s.err s.fcmd s.res⟩ ∧ SameEngine s t) ∧
  ∀ (s : State) (mode : Mode) (key mask0 mask1 : Bytes) (maskI : BitVec 1),
    ∃ t u, step s = .next t ∧
      step { s with mode := mode, key := key, mask0 := mask0, mask1 := mask1, maskI := maskI } = .next u ∧
      u.host = t.host

/-- R42, R140: `Reset` puts every piece of engine state at the value of R24, in every state; nothing survives. That the host's
list and position stay is the model's reading (log 8). -/
def Obligations.ResetTransactionRestoresEveryRegister : Prop :=
  ∀ (s : State) (rest : List HostMove), s.host.moves = .reset :: rest →
    ∃ t, step s = .next t ∧ t.host = ⟨rest, s.host.pc, .nothing⟩ ∧
      (∀ sl, t.len sl = 0 ∧ t.buf sl = []) ∧ t.mode = .none ∧ t.key = List.replicate Config.impl.KL 0 ∧
      t.mask0 = List.replicate Config.impl.BS 0 ∧ t.mask1 = List.replicate Config.impl.BS 0 ∧ t.maskI = 0 ∧
      t.faulted = false ∧ t.err = 0 ∧ t.fcmd = 0x0000 ∧ t.res = 0

/-- R24: the state after power-on. -/
def Obligations.ResetStateHasTheStatedValues : Prop :=
  (∀ sl, State.reset.buf sl = []) ∧ State.reset.mode = .none ∧
    State.reset.key = List.replicate Config.impl.KL 0 ∧
    State.reset.mask0 = List.replicate Config.impl.BS 0 ∧ State.reset.mask1 = List.replicate Config.impl.BS 0 ∧
    State.reset.maskI = 0 ∧ State.reset.faulted = false ∧ State.reset.err = 0 ∧ State.reset.fcmd = 0x0000 ∧
    State.reset.res = 0

/-- The model's choice (log 5): with no move of the host to come, a step changes nothing. The spec says that the engine "is
simply idle, and all state survives idling" (R139). -/
def Obligations.IdleStepChangesNothing : Prop :=
  ∀ s : State, s.host.moves = [] → step s = .next s

/-- R155: every command ends. That the step also answers a next state with no move to come is log 5, that a fault is a next
state log 6, and that a refused write is passed over log 7: the model never stops. -/
def Obligations.EveryStepEnds : Prop := ∀ s : State, ∃ t, step s = .next t

/-- R21: the host's position counts the issues, "for every command and whether or not the command faulted". That it stays at
every other move is the model's reading: at a reset log 8, with no move to come log 5; a refused write is no move (log 7). -/
def Obligations.PositionCountsTheIssues : Prop :=
  ∀ s t : State, step s = .next t →
    t.host.pc = match pending Config.impl s with
      | .issue _ :: _ => s.host.pc + 1
      | _ => s.host.pc

/-- R80, R90 to R98, R110, R111, the parameters they name: each of the eight configured commands does what its rule says for
every configuration `c`, in the parameters of `c`; and it reads of the configuration only the parameters its rule names, so
that its meaning is its rule at every `c` that has those of the engine. PAD reads neither `BS` nor the primitive, BLKSZ only
`BS`, and no data command reads `KL`. The masks have block size (R18). -/
def Obligations.MeaningsAreTheRulesOfTheConfiguration : Prop :=
  ∀ (c : Config) (w : CmdWord) (rd ra rb : Slot) (imm8 : BitVec 8) (s : State),
    ((c.CAP = Config.impl.CAP → exec (.pad rd imm8) s = .next (padRule c (encode (.pad rd imm8)) rd imm8 s)) ∧
      (1 ≤ imm8.toNat → c.fits (s.len rd + (imm8.toNat - s.len rd % imm8.toNat)) = true →
        (padRule c w rd imm8 s).buf rd = withPadding imm8.toNat (s.buf rd))) ∧
    ((c.KL = Config.impl.KL → c.BS = Config.impl.BS →
        exec (.ecbnew ra) s = .next (ecbnewRule c (encode (.ecbnew ra)) ra s)) ∧
      (s.len ra = c.KL → (ecbnewRule c w ra s).mode = .ecb ∧ (ecbnewRule c w ra s).key = s.buf ra ∧
        (ecbnewRule c w ra s).mask0 = List.replicate c.BS 0 ∧ (ecbnewRule c w ra s).mask1 = List.replicate c.BS 0)) ∧
    ((c.KL = Config.impl.KL → c.BS = Config.impl.BS →
        exec (.cbcnew ra rb) s = .next (cbcnewRule c (encode (.cbcnew ra rb)) ra rb s)) ∧
      (s.len ra = c.KL → s.len rb = c.BS →
        (cbcnewRule c w ra rb s).mode = .cbc ∧ (cbcnewRule c w ra rb s).key = s.buf ra ∧
        (cbcnewRule c w ra rb s).curMask = s.buf rb ∧ (cbcnewRule c w ra rb s).nextMask = List.replicate c.BS 0)) ∧
    ((c.BS = Config.impl.BS → exec .blksz s = .next (blkszRule c (encode .blksz) s)) ∧
      (s.mode ≠ .none → (blkszRule c w s).res = c.BS)) ∧
    ((c.BS = Config.impl.BS → c.primEnc = Config.impl.primEnc →
        exec (.encb rd) s = .next (encbRule c (encode (.encb rd)) rd s)) ∧
      (s.mode ≠ .none → s.curMask.length = c.BS → s.len rd = c.BS →
        (encbRule c w rd s).buf rd = (cipherBlocks c s [s.buf rd]).flatten)) ∧
    ((c.BS = Config.impl.BS → c.primDec = Config.impl.primDec →
        exec (.decb rd) s = .next (decbRule c (encode (.decb rd)) rd s)) ∧
      (s.mode ≠ .none → s.curMask.length = c.BS → s.len rd = c.BS →
        (decbRule c w rd s).buf rd = (plainBlocks c s [s.buf rd]).flatten)) ∧
    ((c.BS = Config.impl.BS → c.CAP = Config.impl.CAP → c.primEnc = Config.impl.primEnc →
        exec (.enc rd) s = .next (encRule c (encode (.enc rd)) rd s)) ∧
      (s.mode ≠ .none → s.curMask.length = c.BS → c.fits (s.len rd + (c.BS - s.len rd % c.BS)) = true →
        (encRule c w rd s).buf rd = (cipherBlocks c s (chunks c (withPadding c.BS (s.buf rd)))).flatten)) ∧
    ((c.BS = Config.impl.BS → c.primDec = Config.impl.primDec →
        exec (.dec rd) s = .next (decRule c (encode (.dec rd)) rd s)) ∧
      (s.mode ≠ .none → s.curMask.length = c.BS → s.len rd % c.BS = 0 → s.len rd ≠ 0 →
        ((decrypted c s rd).getLastD 0).toNat ≤ s.len rd →
        (decRule c w rd s).buf rd = (decrypted c s rd).take (s.len rd - ((decrypted c s rd).getLastD 0).toNat)))

/-! ## The rules of the commands, each with its faults in order, its result and its frame -/

/-- R70. The bytes read are those before the command, whatever slots coincide (R47). -/
def Obligations.XorFollowsItsRule : Prop :=
  ∀ (rd ra rb : Slot) (s : State),
    (encode (.xor rd ra rb)).toNat = 0x1000 + rd.num * 0x400 + ra.num * 0x100 + rb.num * 0x40 ∧
    ∃ t, exec (.xor rd ra rb) s = .next t ∧
      if s.len rb = 0 then OnlyRaised 2 (encode (.xor rd ra rb)) s t
      else
        t.len rd = s.len ra ∧
        (∀ i a b, s.byteAt ra i = some a → s.byteAt rb (i % s.len rb) = some b → t.byteAt rd i = some (a ^^^ b)) ∧
        OnlySlot rd s t

/-- R71. -/
def Obligations.XoriFollowsItsRule : Prop :=
  ∀ (rd rb : Slot) (s : State),
    (encode (.xori rd rb)).toNat = 0x2000 + rd.num * 0x400 + rb.num * 0x40 ∧
    ∃ t, exec (.xori rd rb) s = .next t ∧
      if s.len rb = 0 then OnlyRaised 2 (encode (.xori rd rb)) s t
      else
        t.len rd = s.len rd ∧
        (∀ i a b, s.byteAt rd i = some a → s.byteAt rb (i % s.len rb) = some b → t.byteAt rd i = some (a ^^^ b)) ∧
        OnlySlot rd s t

/-- R80. -/
def Obligations.PadFollowsItsRule : Prop :=
  ∀ (rd : Slot) (imm8 : BitVec 8) (s : State),
    (encode (.pad rd imm8)).toNat = 0x3000 + rd.num * 0x400 + imm8.toNat ∧
    ∃ t, exec (.pad rd imm8) s = .next t ∧
      if imm8.toNat = 0 then OnlyRaised 3 (encode (.pad rd imm8)) s t
      else if Config.impl.fits (s.len rd + (imm8.toNat - s.len rd % imm8.toNat)) = false then
        OnlyRaised 4 (encode (.pad rd imm8)) s t
      else
        t.len rd = s.len rd + (imm8.toNat - s.len rd % imm8.toNat) ∧
        (∀ off, off < s.len rd → t.byteAt rd off = s.byteAt rd off) ∧
        (∀ off, s.len rd ≤ off → off < t.len rd →
          ∃ b, t.byteAt rd off = some b ∧ b.toNat = imm8.toNat - s.len rd % imm8.toNat) ∧
        OnlySlot rd s t

/-- R81. Only the last byte is looked at. -/
def Obligations.UnpadFollowsItsRule : Prop :=
  ∀ (rd : Slot) (s : State),
    (encode (.unpad rd)).toNat = 0x4000 + rd.num * 0x400 ∧
    ∃ t, exec (.unpad rd) s = .next t ∧
      match s.byteAt rd (s.len rd - 1) with
      | none => s.len rd = 0 ∧ OnlyRaised 5 (encode (.unpad rd)) s t
      | some n =>
        if n.toNat > s.len rd then OnlyRaised 6 (encode (.unpad rd)) s t
        else
          t.len rd = s.len rd - n.toNat ∧
          (∀ off, off < s.len rd - n.toNat → t.byteAt rd off = s.byteAt rd off) ∧
          OnlySlot rd s t

/-- R90. -/
def Obligations.EcbnewFollowsItsRule : Prop :=
  ∀ (ra : Slot) (s : State),
    (encode (.ecbnew ra)).toNat = 0x5000 + ra.num * 0x100 ∧
    ∃ t, exec (.ecbnew ra) s = .next t ∧
      if s.len ra ≠ Config.impl.KL then OnlyRaised 8 (encode (.ecbnew ra)) s t
      else
        t.key = s.buf ra ∧ t.mode = .ecb ∧ t.mask0 = List.replicate Config.impl.BS 0 ∧
        t.mask1 = List.replicate Config.impl.BS 0 ∧ t.maskI = 0 ∧
        SameSlots s t ∧ SameStatus s t ∧ t.res = s.res ∧ t.host = s.host

/-- R91. -/
def Obligations.CbcnewFollowsItsRule : Prop :=
  ∀ (ra rb : Slot) (s : State),
    (encode (.cbcnew ra rb)).toNat = 0x6000 + ra.num * 0x100 + rb.num * 0x40 ∧
    ∃ t, exec (.cbcnew ra rb) s = .next t ∧
      if s.len ra ≠ Config.impl.KL then OnlyRaised 8 (encode (.cbcnew ra rb)) s t
      else if s.len rb ≠ Config.impl.BS then OnlyRaised 9 (encode (.cbcnew ra rb)) s t
      else
        t.key = s.buf ra ∧ t.mode = .cbc ∧ t.maskI = 0 ∧ t.mask0 = s.buf rb ∧
        t.mask1 = List.replicate Config.impl.BS 0 ∧
        SameSlots s t ∧ SameStatus s t ∧ t.res = s.res ∧ t.host = s.host

/-- R92. -/
def Obligations.BlkszFollowsItsRule : Prop :=
  ∀ s : State,
    (encode .blksz).toNat = 0x7000 ∧
    ∃ t, exec .blksz s = .next t ∧
      if s.mode = .none then OnlyRaised 7 (encode .blksz) s t
      else t.res = Config.impl.BS ∧ SameSlots s t ∧ SameContext s t ∧ SameStatus s t ∧ t.host = s.host

/-- R93, R94, R95: in CBC the block is XORed with the current mask and encrypted, and the current mask becomes the
ciphertext; in ECB no mask is touched. The masks have block size (R18). -/
def Obligations.EncbFollowsItsRule : Prop :=
  ∀ (rd : Slot) (s : State), s.mask0.length = Config.impl.BS → s.mask1.length = Config.impl.BS →
    (encode (.encb rd)).toNat = 0x8000 + rd.num * 0x400 ∧
    ∃ t, exec (.encb rd) s = .next t ∧
      if s.mode = .none then OnlyRaised 7 (encode (.encb rd)) s t
      else if s.len rd ≠ Config.impl.BS then OnlyRaised 10 (encode (.encb rd)) s t
      else
        t.len rd = s.len rd ∧ SameSlotsBut rd s t ∧ SameStatus s t ∧ t.res = s.res ∧ t.host = s.host ∧
        if s.mode = .ecb then t.buf rd = Config.impl.primEnc s.key (s.buf rd) ∧ SameContext s t
        else
          t.buf rd = Config.impl.primEnc s.key (xorBlock (s.buf rd) s.curMask) ∧
          t.mode = s.mode ∧ t.key = s.key ∧ t.maskI = s.maskI ∧
          t.mask s.maskI = t.buf rd ∧ t.mask (1 - s.maskI) = s.mask (1 - s.maskI)

/-- R96, R97, R98: in CBC the incoming ciphertext is saved into the next mask, the block is decrypted and XORed with the
current mask, and the roles are swapped; in ECB no mask is touched. The masks have block size (R18). -/
def Obligations.DecbFollowsItsRule : Prop :=
  ∀ (rd : Slot) (s : State), s.mask0.length = Config.impl.BS → s.mask1.length = Config.impl.BS →
    (encode (.decb rd)).toNat = 0x9000 + rd.num * 0x400 ∧
    ∃ t, exec (.decb rd) s = .next t ∧
      if s.mode = .none then OnlyRaised 7 (encode (.decb rd)) s t
      else if s.len rd ≠ Config.impl.BS then OnlyRaised 10 (encode (.decb rd)) s t
      else
        t.len rd = s.len rd ∧ SameSlotsBut rd s t ∧ SameStatus s t ∧ t.res = s.res ∧ t.host = s.host ∧
        if s.mode = .ecb then t.buf rd = Config.impl.primDec s.key (s.buf rd) ∧ SameContext s t
        else
          t.buf rd = xorBlock (Config.impl.primDec s.key (s.buf rd)) s.curMask ∧
          t.mode = s.mode ∧ t.key = s.key ∧ t.maskI = 1 - s.maskI ∧
          t.mask (1 - s.maskI) = s.buf rd ∧ t.mask s.maskI = s.mask s.maskI

/-- R110 and R99: `ENC` pads with `BS` and makes of the chunks what the chaining mode makes of a list of blocks; the current
mask ends as the last ciphertext block. -/
def Obligations.EncFollowsItsRule : Prop :=
  ∀ (rd : Slot) (s : State), s.mask0.length = Config.impl.BS → s.mask1.length = Config.impl.BS →
    (encode (.enc rd)).toNat = 0xA000 + rd.num * 0x400 ∧
    ∃ t, exec (.enc rd) s = .next t ∧
      if s.mode = .none then OnlyRaised 7 (encode (.enc rd)) s t
      else if Config.impl.fits (s.len rd + (Config.impl.BS - s.len rd % Config.impl.BS)) = false then
        OnlyRaised 4 (encode (.enc rd)) s t
      else
        t.len rd = (s.len rd / Config.impl.BS + 1) * Config.impl.BS ∧
        t.buf rd =
          (cipherBlocks Config.impl s (chunks Config.impl (withPadding Config.impl.BS (s.buf rd)))).flatten ∧
        SameSlotsBut rd s t ∧ SameStatus s t ∧ t.res = s.res ∧ t.host = s.host ∧
        if s.mode = .ecb then SameContext s t
        else
          t.mode = s.mode ∧ t.key = s.key ∧ t.maskI = s.maskI ∧
          t.mask s.maskI = chunk Config.impl (t.buf rd) (s.len rd / Config.impl.BS) ∧
          t.mask (1 - s.maskI) = s.mask (1 - s.maskI)

/-- R111 and R99: `DEC` makes of the chunks what the chaining mode makes of a list of blocks, then unpads; `PadUnderflow`
leaves the decrypted chunks and the advanced context. The masks end as corner case (f) of R111 says. -/
def Obligations.DecFollowsItsRule : Prop :=
  ∀ (rd : Slot) (s : State), s.mask0.length = Config.impl.BS → s.mask1.length = Config.impl.BS →
    (encode (.dec rd)).toNat = 0xB000 + rd.num * 0x400 ∧
    ∃ t, exec (.dec rd) s = .next t ∧
      if s.mode = .none then OnlyRaised 7 (encode (.dec rd)) s t
      else if s.len rd % Config.impl.BS ≠ 0 then OnlyRaised 11 (encode (.dec rd)) s t
      else if s.len rd = 0 then OnlyRaised 5 (encode (.dec rd)) s t
      else
        (decrypted Config.impl s rd).length = s.len rd ∧
        (if ((decrypted Config.impl s rd).getLastD 0).toNat > s.len rd then
            t.buf rd = decrypted Config.impl s rd ∧
            t.faulted = true ∧ t.err = 6 ∧ t.fcmd = encode (.dec rd)
          else
            t.buf rd = (decrypted Config.impl s rd).take
              (s.len rd - ((decrypted Config.impl s rd).getLastD 0).toNat) ∧
            SameStatus s t) ∧
        SameSlotsBut rd s t ∧ t.res = s.res ∧ t.host = s.host ∧
        if s.mode = .ecb then SameContext s t
        else
          t.mode = s.mode ∧ t.key = s.key ∧
          t.maskI = s.maskI + BitVec.ofNat 1 (s.len rd / Config.impl.BS) ∧
          t.mask t.maskI = chunk Config.impl (s.buf rd) (s.len rd / Config.impl.BS - 1) ∧
          t.mask (1 - t.maskI) =
            if s.len rd / Config.impl.BS = 1 then s.mask s.maskI
            else chunk Config.impl (s.buf rd) (s.len rd / Config.impl.BS - 2)

/-! ## Where each command completes with its own effect -/

/-- R70, R71, R80, R81: XOR, XORI, PAD and UNPAD complete, with no fault, on the operands their rules accept. -/
def Obligations.BufferCommandsComplete : Prop :=
  ∀ (s : State) (rd ra rb : Slot) (imm8 : BitVec 8),
    (1 ≤ s.len rb → ∃ t, exec (.xor rd ra rb) s = .next t ∧ t.len rd = s.len ra ∧ OnlySlot rd s t) ∧
    (1 ≤ s.len rb → ∃ t, exec (.xori rd rb) s = .next t ∧ t.len rd = s.len rd ∧ OnlySlot rd s t) ∧
    (1 ≤ imm8.toNat → Config.impl.fits (s.len rd + (imm8.toNat - s.len rd % imm8.toNat)) = true →
      ∃ t, exec (.pad rd imm8) s = .next t ∧ t.len rd = (s.len rd / imm8.toNat + 1) * imm8.toNat ∧ OnlySlot rd s t) ∧
    (∀ n, s.byteAt rd (s.len rd - 1) = some n → n.toNat ≤ s.len rd →
      ∃ t, exec (.unpad rd) s = .next t ∧ t.len rd = s.len rd - n.toNat ∧ OnlySlot rd s t)

/-- R90, R91, R92, R93, R96: ECBNEW, CBCNEW, BLKSZ, ENCB and DECB complete, with no fault, where their tests pass, each with
its own effect; in CBC the bytes are those of R95 and R98 for a current mask of block size (R18). -/
def Obligations.BlockCommandsComplete : Prop :=
  ∀ (s : State) (rd ra rb : Slot),
    (s.len ra = Config.impl.KL →
      ∃ t, exec (.ecbnew ra) s = .next t ∧ t.mode = .ecb ∧ t.key = s.buf ra ∧ SameSlots s t ∧ SameStatus s t) ∧
    (s.len ra = Config.impl.KL → s.len rb = Config.impl.BS →
      ∃ t, exec (.cbcnew ra rb) s = .next t ∧ t.mode = .cbc ∧ t.key = s.buf ra ∧ t.curMask = s.buf rb ∧
        SameSlots s t ∧ SameStatus s t) ∧
    (s.mode ≠ .none →
      ∃ t, exec .blksz s = .next t ∧ t.res = Config.impl.BS ∧ SameSlots s t ∧ SameContext s t ∧ SameStatus s t) ∧
    (s.mode ≠ .none → s.len rd = Config.impl.BS →
      ∃ t, exec (.encb rd) s = .next t ∧ t.len rd = Config.impl.BS ∧ SameSlotsBut rd s t ∧ SameStatus s t ∧
        t.maskI = s.maskI ∧
        (s.mode = .ecb → t.buf rd = Config.impl.primEnc s.key (s.buf rd) ∧ SameContext s t) ∧
        (s.mode = .cbc → s.curMask.length = Config.impl.BS →
          t.buf rd = Config.impl.primEnc s.key (xorBlock (s.buf rd) s.curMask) ∧ t.curMask = t.buf rd)) ∧
    (s.mode ≠ .none → s.len rd = Config.impl.BS →
      ∃ t, exec (.decb rd) s = .next t ∧ t.len rd = Config.impl.BS ∧ SameSlotsBut rd s t ∧ SameStatus s t ∧
        (s.mode = .ecb → t.buf rd = Config.impl.primDec s.key (s.buf rd) ∧ SameContext s t) ∧
        (s.mode = .cbc → t.curMask = s.buf rd) ∧
        (s.mode = .cbc → s.curMask.length = Config.impl.BS →
          t.buf rd = xorBlock (Config.impl.primDec s.key (s.buf rd)) s.curMask))

/-- R110, R111: ENC completes, with no fault, when a context exists and the padded buffer fits; DEC when a context exists,
the length is a positive multiple of `BS` and the last decrypted byte does not exceed it. -/
def Obligations.WholeBufferCommandsComplete : Prop :=
  ∀ (s : State) (rd : Slot),
    (s.mode ≠ .none → Config.impl.fits (s.len rd + (Config.impl.BS - s.len rd % Config.impl.BS)) = true →
      ∃ t, exec (.enc rd) s = .next t ∧ t.len rd = (s.len rd / Config.impl.BS + 1) * Config.impl.BS ∧
        SameSlotsBut rd s t ∧ SameStatus s t) ∧
    (s.mode ≠ .none → s.mask0.length = Config.impl.BS → s.mask1.length = Config.impl.BS →
      s.len rd % Config.impl.BS = 0 → s.len rd ≠ 0 →
      ((decrypted Config.impl s rd).getLastD 0).toNat ≤ s.len rd →
      ∃ t, exec (.dec rd) s = .next t ∧ t.len rd = s.len rd - ((decrypted Config.impl s rd).getLastD 0).toNat ∧
        SameSlotsBut rd s t ∧ SameStatus s t)

/-! ## Invariants and whole-machine rules

`pending Config.impl s` is the list of the moves still to come, refused writes at its front passed over (R38, log 7): its head
is the move the step makes. -/

/-- The invariant of reachable states holds after power-on. -/
def Obligations.InvariantHoldsAtReset : Prop := State.reset.Inv Config.impl

/-- R12, R18, R19, R20: every transaction of the host, whatever it is, keeps the invariant of reachable states. -/
def Obligations.EveryStepKeepsTheInvariant : Prop :=
  ∀ s t : State, s.Inv Config.impl → step s = .next t → t.Inv Config.impl

/-- R120, the column "Raised by": in every reachable state that is faulted, `FCMD` is a word that can raise the code in
`ERR`. -/
def Obligations.FaultRecordNamesACommandThatRaisesIt : Prop :=
  ∀ s t : State, (s.faulted = true → mayRaise s.err (decode s.fcmd) = true) → step s = .next t →
    (t.faulted = true → mayRaise t.err (decode t.fcmd) = true)

/-- R133: a fault records the issued word, and but for `PadUnderflow` in `DEC` the command has had no effect. -/
def Obligations.FaultsArePrecise : Prop :=
  ∀ (s t : State) (w : CmdWord) (rest : List HostMove),
    pending Config.impl s = .issue w :: rest → s.faulted = false → step s = .next t → t.faulted = true →
    t.fcmd = w ∧
    ((∀ rd, decode w ≠ .command (.dec rd)) ∨ t.err ≠ 6 → SameSlots s t ∧ SameContext s t ∧ t.res = s.res)

/-- R135: nothing but `Reset` clears `FAULTED`, and until then the first fault is kept. -/
def Obligations.OnlyResetLeavesAFault : Prop :=
  ∀ s t : State, s.faulted = true → step s = .next t →
    (∃ rest, pending Config.impl s = .reset :: rest) ∨ (t.faulted = true ∧ t.err = s.err ∧ t.fcmd = s.fcmd)

/-- R14, R15: MODE and KEY are written only by `ECBNEW`, `CBCNEW` and reset. -/
def Obligations.ModeAndKeyChangeOnlyByConstruction : Prop :=
  ∀ s t : State, step s = .next t → t.mode ≠ s.mode ∨ t.key ≠ s.key →
    (∃ rest, pending Config.impl s = .reset :: rest ∧ t.mode = .none) ∨
    (∃ w ra rest, pending Config.impl s = .issue w :: rest ∧ decode w = .command (.ecbnew ra) ∧ t.mode = .ecb ∧ t.key = s.buf ra) ∨
    (∃ w ra rb rest, pending Config.impl s = .issue w :: rest ∧ decode w = .command (.cbcnew ra rb) ∧ t.mode = .cbc ∧
      t.key = s.buf ra)

/-- R17: MASK_I is set to 0 by construction and reset, and otherwise changed only by CBC decryption. -/
def Obligations.MaskIndexChangesOnlyByCbcDecryption : Prop :=
  ∀ s t : State, step s = .next t → t.maskI ≠ s.maskI →
    t.maskI = 0 ∧ ((∃ rest, pending Config.impl s = .reset :: rest) ∨
      (∃ w rest ra, pending Config.impl s = .issue w :: rest ∧ decode w = .command (.ecbnew ra)) ∨
      (∃ w rest ra rb, pending Config.impl s = .issue w :: rest ∧ decode w = .command (.cbcnew ra rb))) ∨
    s.mode = .cbc ∧ ∃ w rest rd, pending Config.impl s = .issue w :: rest ∧
      (decode w = .command (.decb rd) ∨ decode w = .command (.dec rd))

/-- R20, R92: RES is written only by `BLKSZ`, which writes `BS`, and by reset. -/
def Obligations.ResultChangesOnlyByBlksz : Prop :=
  ∀ s t : State, step s = .next t → t.res ≠ s.res →
    (t.res = 0 ∧ ∃ rest, pending Config.impl s = .reset :: rest) ∨
    (t.res = Config.impl.BS ∧ ∃ w rest, pending Config.impl s = .issue w :: rest ∧ decode w = .command .blksz)

/-- R12: which commands change a length, and which way. -/
def Obligations.LengthsChangeOnlyAsStated : Prop :=
  ∀ (i : Instr) (s t : State) (sl : Slot), exec i s = .next t → t.len sl ≠ s.len sl →
    match i with
    | .xor rd ra _ => rd = sl ∧ t.len sl = s.len ra
    | .pad rd _ => rd = sl ∧ s.len sl < t.len sl
    | .enc rd => rd = sl ∧ s.len sl < t.len sl
    | .unpad rd => rd = sl ∧ t.len sl < s.len sl
    | .dec rd => rd = sl ∧ t.len sl < s.len sl
    | .xori _ _ => False
    | .ecbnew _ => False
    | .cbcnew _ _ => False
    | .blksz => False
    | .encb _ => False
    | .decb _ => False

/-- R22: the content of the next mask never influences a buffer byte or any other register, whatever command is run. -/
def Obligations.NextMaskNeverInfluencesAnything : Prop :=
  ∀ (i : Instr) (s s' t t' : State), AgreeButNextMask s s' → exec i s = .next t → exec i s' = .next t' →
    AgreeButNextMask t t'

/-- R124: `PAD` and `ENC` raise `Capacity` exactly when the padded length exceeds a finite `CAP`; with `CAP = unbounded`
never. For every configuration `c`. -/
def Obligations.CapacityIsRaisedExactlyAboveCap : Prop :=
  ∀ (c : Config) (w : CmdWord) (rd : Slot) (imm8 : BitVec 8) (s : State), s.faulted = false → s.err = 0 →
    (1 ≤ imm8.toNat →
      ((padRule c w rd imm8 s).err = 4 ↔
        ∃ cap, c.CAP = some cap ∧ cap < s.len rd + (imm8.toNat - s.len rd % imm8.toNat))) ∧
    (s.mode ≠ .none →
      ((encRule c w rd s).err = 4 ↔ ∃ cap, c.CAP = some cap ∧ cap < s.len rd + (c.BS - s.len rd % c.BS)))

/-! ## Laws -/

/-- R72 (1): `XORI rd, rb` and `XOR rd, rd, rb` leave the same state. -/
def Obligations.XoriIsXorOntoItself : Prop :=
  ∀ (rd rb : Slot) (s : State), 1 ≤ s.len rb → exec (.xori rd rb) s = exec (.xor rd rd rb) s

/-- R72 (2): with `rd` different from `rb`, `XORI rd, rb` twice restores the whole state. -/
def Obligations.XoriTwiceRestores : Prop :=
  ∀ (rd rb : Slot) (s : State), rd ≠ rb → 1 ≤ s.len rb →
    ∃ t, exec (.xori rd rb) s = .next t ∧ exec (.xori rd rb) t = .next s

/-- R72 (4): replacing the key `b` by `b ++ b` changes no result byte. -/
def Obligations.DoubledKeyGivesTheSameBytes : Prop :=
  ∀ (rd ra rb : Slot) (s : State), ra ≠ rb → 1 ≤ s.len rb →
    ∃ t t', exec (.xor rd ra rb) s = .next t ∧ exec (.xor rd ra rb) (s.setBuf rb (s.buf rb ++ s.buf rb)) = .next t' ∧
      t'.buf rd = t.buf rd

/-- R83: for every content and every block size in 1..255 that fits, `PAD` then `UNPAD` restores the state; "The converse
does not hold": `UNPAD` then `PAD` need not restore a buffer. -/
def Obligations.UnpadUndoesPad : Prop :=
  (∀ (rd : Slot) (imm8 : BitVec 8) (s : State), 1 ≤ imm8.toNat → Config.impl.fits (s.len rd + imm8.toNat) = true →
    ∃ t, exec (.pad rd imm8) s = .next t ∧ t.len rd % imm8.toNat = 0 ∧ s.len rd < t.len rd ∧
      exec (.unpad rd) t = .next s) ∧
  ∀ rd : Slot, ∃ (imm8 : BitVec 8) (s t u : State), 1 ≤ imm8.toNat ∧ s.faulted = false ∧
    exec (.unpad rd) s = .next t ∧ t.faulted = false ∧ exec (.pad rd imm8) t = .next u ∧ u.buf rd ≠ s.buf rd

/-- R100: in ECB two blocks with equal content are encrypted to equal content, in different slots one after the other. -/
def Obligations.EcbEncryptsEqualBlocksEqually : Prop :=
  ∀ (a b : Slot) (s : State), a ≠ b → s.mode = .ecb → s.len a = Config.impl.BS → s.buf a = s.buf b →
    ∃ t u, exec (.encb a) s = .next t ∧ exec (.encb b) t = .next u ∧ u.buf a = u.buf b ∧
      u.buf a = Config.impl.primEnc s.key (s.buf a)

/-- R100: inside one `ENC` in ECB, equal plaintext chunks give equal ciphertext chunks. For every configuration `c`. -/
def Obligations.EcbShowsEqualChunks : Prop :=
  ∀ (c : Config) (w : CmdWord) (rd : Slot) (s : State) (j k : Nat), s.mode = .ecb →
    c.fits (s.len rd + (c.BS - s.len rd % c.BS)) = true → j ≤ s.len rd / c.BS → k ≤ s.len rd / c.BS →
    chunk c (withPadding c.BS (s.buf rd)) j = chunk c (withPadding c.BS (s.buf rd)) k →
    chunk c ((encRule c w rd s).buf rd) j = chunk c ((encRule c w rd s).buf rd) k ∧
      (chunk c ((encRule c w rd s).buf rd) j).length = c.BS

/-- R112: `ENC rd` leaves the same buffer and context as `PAD rd, BS` and then, for each chunk in order, moving it to a free
slot, `ENCB` there, and moving it back. For every configuration `c`. -/
def Obligations.EncIsPadThenEncbOfEachChunk : Prop :=
  ∀ (c : Config) (w : CmdWord) (rd free : Slot) (s : State), rd ≠ free → s.Inv c → s.faulted = false →
    s.mode ≠ .none → c.fits (s.len rd + (c.BS - s.len rd % c.BS)) = true →
    let byHand := (List.range (s.len rd / c.BS + 1)).foldl (encChunkByHand c rd free)
      (padRule c w rd (BitVec.ofNat 8 c.BS) s)
    (encRule c w rd s).buf rd = byHand.buf rd ∧ SameContext (encRule c w rd s) byHand ∧ byHand.faulted = false

/-- R112: `DEC rd` leaves the same buffer, context and status as, for each chunk in order, moving it to a free slot, `DECB`
there and moving it back, and then the unpad. For every configuration `c`. On the path of `PadUnderflow`, where R112 says
nothing, the status agrees because the unpad is handed the word of `DEC`, as in R111; a separate `UNPAD` would record its
own word. -/
def Obligations.DecIsDecbOfEachChunkThenUnpad : Prop :=
  ∀ (c : Config) (w : CmdWord) (rd free : Slot) (s : State), rd ≠ free → s.Inv c → s.faulted = false →
    s.mode ≠ .none → s.len rd % c.BS = 0 → s.len rd ≠ 0 →
    let byHand := unpadRule w rd ((List.range (s.len rd / c.BS)).foldl (decChunkByHand c rd free) s)
    (decRule c w rd s).buf rd = byHand.buf rd ∧ SameContext (decRule c w rd s) byHand ∧
      SameStatus (decRule c w rd s) byHand

/-- R113 for ECB: under `PrimInverse`, `ENC rd` then `DEC rd` on the same context restores the state. For every configuration
`c` with that property. -/
def Obligations.EcbRoundTrip : Prop :=
  ∀ (c : Config) (w w' : CmdWord) (rd : Slot) (s : State), c.PrimInverse → s.mode = .ecb → s.key.length = c.KL →
    c.fits (s.len rd + (c.BS - s.len rd % c.BS)) = true →
    decRule c w' rd (encRule c w rd s) = s

/-- R113 for CBC: under `PrimInverse`, `CBCNEW`, `ENC`, `CBCNEW` with the same key and IV, `DEC` leaves the buffer as it was
and no fault. For every configuration `c` with that property. -/
def Obligations.CbcRoundTripWithReconstruction : Prop :=
  ∀ (c : Config) (w₁ w₂ w₃ w₄ : CmdWord) (rd sk sv : Slot) (s : State), c.PrimInverse → rd ≠ sk → rd ≠ sv →
    s.len sk = c.KL → s.len sv = c.BS → c.fits (s.len rd + (c.BS - s.len rd % c.BS)) = true →
    let u := decRule c w₄ rd (cbcnewRule c w₃ sk sv (encRule c w₂ rd (cbcnewRule c w₁ sk sv s)))
    u.buf rd = s.buf rd ∧ SameSlotsBut rd s u ∧ SameStatus s u

/-- R114 with two or more chunks: `DEC` on the CBC context that has just encrypted gives chunk 0 as `p_0 ^ IV ^ c_(n-1)`,
which is `p_0` exactly if `c_(n-1) = IV`, and every other chunk right; the truncation is right and no fault is raised. For
every configuration `c` with `PrimInverse`. -/
def Obligations.CbcDecryptionOnTheEncryptingContext : Prop :=
  ∀ (c : Config) (w₁ w₂ w₃ : CmdWord) (rd sk sv : Slot) (s : State), c.PrimInverse → rd ≠ sk → rd ≠ sv →
    s.len sk = c.KL → s.len sv = c.BS → c.BS ≤ s.len rd →
    c.fits (s.len rd + (c.BS - s.len rd % c.BS)) = true →
    let t := encRule c w₂ rd (cbcnewRule c w₁ sk sv s)
    let u := decRule c w₃ rd t
    u.buf rd =
      xorBlock (xorBlock (chunk c (s.buf rd) 0) (s.buf sv)) (chunk c (t.buf rd) (s.len rd / c.BS)) ++
        (s.buf rd).drop c.BS ∧
      (chunk c (u.buf rd) 0 = chunk c (s.buf rd) 0 ↔ chunk c (t.buf rd) (s.len rd / c.BS) = s.buf sv) ∧
      SameStatus s u

/-- R114 with one chunk (`LEN < BS` before `ENC`): `DEC` on the CBC context that has just encrypted makes of the chunk
`x = p_0 ^ IV ^ c_0`, which is the padded plaintext `p_0` exactly if `c_0 = IV`, and truncates by the last byte of `x`, or
raises `PadUnderflow` with `x` uncut. For every configuration `c` with `PrimInverse`. -/
def Obligations.CbcOneChunkDecryptionOnTheEncryptingContext : Prop :=
  ∀ (c : Config) (w₁ w₂ w₃ : CmdWord) (rd sk sv : Slot) (s : State), c.PrimInverse → rd ≠ sk → rd ≠ sv →
    s.len sk = c.KL → s.len sv = c.BS → s.len rd < c.BS →
    let t := encRule c w₂ rd (cbcnewRule c w₁ sk sv s)
    let u := decRule c w₃ rd t
    let x := xorBlock (xorBlock (withPadding c.BS (s.buf rd)) (s.buf sv)) (t.buf rd)
    t.len rd = c.BS ∧ (x = withPadding c.BS (s.buf rd) ↔ t.buf rd = s.buf sv) ∧
      if (x.getLastD 0).toNat > c.BS then u.buf rd = x ∧ u.faulted = true ∧ u.err = 6 ∧ u.fcmd = w₃
      else u.buf rd = x.take (c.BS - (x.getLastD 0).toNat) ∧ SameStatus s u
end

