-- ==== Sys2Proof/Laws/State.lean ====
section
/-! SUPPORT. One lemma per field per update of the state, each true by unfolding the update once, so that no later proof
unfolds a record update. -/

namespace Sys2Proof.Machine

/-! ## `setBuf` -/

@[simp] theorem State.setBuf_mem (s : State) (sl : Slot) (v : Bytes) : (s.setBuf sl v).mem = s.mem.set sl v := rfl
@[simp] theorem State.setBuf_mode (s : State) (sl : Slot) (v : Bytes) : (s.setBuf sl v).mode = s.mode := rfl
@[simp] theorem State.setBuf_key (s : State) (sl : Slot) (v : Bytes) : (s.setBuf sl v).key = s.key := rfl
@[simp] theorem State.setBuf_mask0 (s : State) (sl : Slot) (v : Bytes) : (s.setBuf sl v).mask0 = s.mask0 := rfl
@[simp] theorem State.setBuf_mask1 (s : State) (sl : Slot) (v : Bytes) : (s.setBuf sl v).mask1 = s.mask1 := rfl
@[simp] theorem State.setBuf_maskI (s : State) (sl : Slot) (v : Bytes) : (s.setBuf sl v).maskI = s.maskI := rfl
@[simp] theorem State.setBuf_faulted (s : State) (sl : Slot) (v : Bytes) : (s.setBuf sl v).faulted = s.faulted := rfl
@[simp] theorem State.setBuf_err (s : State) (sl : Slot) (v : Bytes) : (s.setBuf sl v).err = s.err := rfl
@[simp] theorem State.setBuf_fcmd (s : State) (sl : Slot) (v : Bytes) : (s.setBuf sl v).fcmd = s.fcmd := rfl
@[simp] theorem State.setBuf_res (s : State) (sl : Slot) (v : Bytes) : (s.setBuf sl v).res = s.res := rfl
@[simp] theorem State.setBuf_host (s : State) (sl : Slot) (v : Bytes) : (s.setBuf sl v).host = s.host := rfl

/-! ## `raise` (R133) -/

@[simp] theorem raise_mem (k : FaultKind) (w : CmdWord) (s : State) : (raise k w s).mem = s.mem := rfl
@[simp] theorem raise_mode (k : FaultKind) (w : CmdWord) (s : State) : (raise k w s).mode = s.mode := rfl
@[simp] theorem raise_key (k : FaultKind) (w : CmdWord) (s : State) : (raise k w s).key = s.key := rfl
@[simp] theorem raise_mask0 (k : FaultKind) (w : CmdWord) (s : State) : (raise k w s).mask0 = s.mask0 := rfl
@[simp] theorem raise_mask1 (k : FaultKind) (w : CmdWord) (s : State) : (raise k w s).mask1 = s.mask1 := rfl
@[simp] theorem raise_maskI (k : FaultKind) (w : CmdWord) (s : State) : (raise k w s).maskI = s.maskI := rfl
@[simp] theorem raise_faulted (k : FaultKind) (w : CmdWord) (s : State) : (raise k w s).faulted = true := rfl
@[simp] theorem raise_err (k : FaultKind) (w : CmdWord) (s : State) : (raise k w s).err = faultCode k := rfl
@[simp] theorem raise_fcmd (k : FaultKind) (w : CmdWord) (s : State) : (raise k w s).fcmd = w := rfl
@[simp] theorem raise_res (k : FaultKind) (w : CmdWord) (s : State) : (raise k w s).res = s.res := rfl
@[simp] theorem raise_host (k : FaultKind) (w : CmdWord) (s : State) : (raise k w s).host = s.host := rfl

/-! ## `memWrite` -/

@[simp] theorem memWrite_mem (s : State) (sl : Slot) (off : Nat) (v : Bytes) : (memWrite s sl off v).mem = s.mem.set sl ((s.buf sl).take off ++ v ++ (s.buf sl).drop (off + v.length)) := rfl
@[simp] theorem memWrite_mode (s : State) (sl : Slot) (off : Nat) (v : Bytes) : (memWrite s sl off v).mode = s.mode := rfl
@[simp] theorem memWrite_key (s : State) (sl : Slot) (off : Nat) (v : Bytes) : (memWrite s sl off v).key = s.key := rfl
@[simp] theorem memWrite_mask0 (s : State) (sl : Slot) (off : Nat) (v : Bytes) : (memWrite s sl off v).mask0 = s.mask0 := rfl
@[simp] theorem memWrite_mask1 (s : State) (sl : Slot) (off : Nat) (v : Bytes) : (memWrite s sl off v).mask1 = s.mask1 := rfl
@[simp] theorem memWrite_maskI (s : State) (sl : Slot) (off : Nat) (v : Bytes) : (memWrite s sl off v).maskI = s.maskI := rfl
@[simp] theorem memWrite_faulted (s : State) (sl : Slot) (off : Nat) (v : Bytes) : (memWrite s sl off v).faulted = s.faulted := rfl
@[simp] theorem memWrite_err (s : State) (sl : Slot) (off : Nat) (v : Bytes) : (memWrite s sl off v).err = s.err := rfl
@[simp] theorem memWrite_fcmd (s : State) (sl : Slot) (off : Nat) (v : Bytes) : (memWrite s sl off v).fcmd = s.fcmd := rfl
@[simp] theorem memWrite_res (s : State) (sl : Slot) (off : Nat) (v : Bytes) : (memWrite s sl off v).res = s.res := rfl
@[simp] theorem memWrite_host (s : State) (sl : Slot) (off : Nat) (v : Bytes) : (memWrite s sl off v).host = s.host := rfl

/-! ## `setMask` -/

@[simp] theorem State.setMask_mem (s : State) (i : BitVec 1) (v : Bytes) : (s.setMask i v).mem = s.mem := by
  unfold State.setMask
  split <;> rfl
@[simp] theorem State.setMask_mode (s : State) (i : BitVec 1) (v : Bytes) : (s.setMask i v).mode = s.mode := by
  unfold State.setMask
  split <;> rfl
@[simp] theorem State.setMask_key (s : State) (i : BitVec 1) (v : Bytes) : (s.setMask i v).key = s.key := by
  unfold State.setMask
  split <;> rfl
@[simp] theorem State.setMask_mask0 (s : State) (i : BitVec 1) (v : Bytes) : (s.setMask i v).mask0 = if i = 0 then v else s.mask0 := by
  unfold State.setMask
  split <;> rfl
@[simp] theorem State.setMask_mask1 (s : State) (i : BitVec 1) (v : Bytes) : (s.setMask i v).mask1 = if i = 0 then s.mask1 else v := by
  unfold State.setMask
  split <;> rfl
@[simp] theorem State.setMask_maskI (s : State) (i : BitVec 1) (v : Bytes) : (s.setMask i v).maskI = s.maskI := by
  unfold State.setMask
  split <;> rfl
@[simp] theorem State.setMask_faulted (s : State) (i : BitVec 1) (v : Bytes) : (s.setMask i v).faulted = s.faulted := by
  unfold State.setMask
  split <;> rfl
@[simp] theorem State.setMask_err (s : State) (i : BitVec 1) (v : Bytes) : (s.setMask i v).err = s.err := by
  unfold State.setMask
  split <;> rfl
@[simp] theorem State.setMask_fcmd (s : State) (i : BitVec 1) (v : Bytes) : (s.setMask i v).fcmd = s.fcmd := by
  unfold State.setMask
  split <;> rfl
@[simp] theorem State.setMask_res (s : State) (i : BitVec 1) (v : Bytes) : (s.setMask i v).res = s.res := by
  unfold State.setMask
  split <;> rfl
@[simp] theorem State.setMask_host (s : State) (i : BitVec 1) (v : Bytes) : (s.setMask i v).host = s.host := by
  unfold State.setMask
  split <;> rfl

/-! ## `takeMove` -/

@[simp] theorem takeMove_mem (rest : List HostMove) (s : State) : (takeMove rest s).mem = s.mem := rfl
@[simp] theorem takeMove_mode (rest : List HostMove) (s : State) : (takeMove rest s).mode = s.mode := rfl
@[simp] theorem takeMove_key (rest : List HostMove) (s : State) : (takeMove rest s).key = s.key := rfl
@[simp] theorem takeMove_mask0 (rest : List HostMove) (s : State) : (takeMove rest s).mask0 = s.mask0 := rfl
@[simp] theorem takeMove_mask1 (rest : List HostMove) (s : State) : (takeMove rest s).mask1 = s.mask1 := rfl
@[simp] theorem takeMove_maskI (rest : List HostMove) (s : State) : (takeMove rest s).maskI = s.maskI := rfl
@[simp] theorem takeMove_faulted (rest : List HostMove) (s : State) : (takeMove rest s).faulted = s.faulted := rfl
@[simp] theorem takeMove_err (rest : List HostMove) (s : State) : (takeMove rest s).err = s.err := rfl
@[simp] theorem takeMove_fcmd (rest : List HostMove) (s : State) : (takeMove rest s).fcmd = s.fcmd := rfl
@[simp] theorem takeMove_res (rest : List HostMove) (s : State) : (takeMove rest s).res = s.res := rfl
@[simp] theorem takeMove_host (rest : List HostMove) (s : State) : (takeMove rest s).host = { s.host with moves := rest, reply := .nothing } := rfl

/-! ## `takeIssue` -/

@[simp] theorem takeIssue_mem (rest : List HostMove) (s : State) : (takeIssue rest s).mem = s.mem := rfl
@[simp] theorem takeIssue_mode (rest : List HostMove) (s : State) : (takeIssue rest s).mode = s.mode := rfl
@[simp] theorem takeIssue_key (rest : List HostMove) (s : State) : (takeIssue rest s).key = s.key := rfl
@[simp] theorem takeIssue_mask0 (rest : List HostMove) (s : State) : (takeIssue rest s).mask0 = s.mask0 := rfl
@[simp] theorem takeIssue_mask1 (rest : List HostMove) (s : State) : (takeIssue rest s).mask1 = s.mask1 := rfl
@[simp] theorem takeIssue_maskI (rest : List HostMove) (s : State) : (takeIssue rest s).maskI = s.maskI := rfl
@[simp] theorem takeIssue_faulted (rest : List HostMove) (s : State) : (takeIssue rest s).faulted = s.faulted := rfl
@[simp] theorem takeIssue_err (rest : List HostMove) (s : State) : (takeIssue rest s).err = s.err := rfl
@[simp] theorem takeIssue_fcmd (rest : List HostMove) (s : State) : (takeIssue rest s).fcmd = s.fcmd := rfl
@[simp] theorem takeIssue_res (rest : List HostMove) (s : State) : (takeIssue rest s).res = s.res := rfl
@[simp] theorem takeIssue_host (rest : List HostMove) (s : State) : (takeIssue rest s).host = ⟨rest, s.host.pc + 1, .nothing⟩ := rfl

/-! ## `idle` -/

@[simp] theorem idle_mem (s : State) : (idle s).mem = s.mem := rfl
@[simp] theorem idle_mode (s : State) : (idle s).mode = s.mode := rfl
@[simp] theorem idle_key (s : State) : (idle s).key = s.key := rfl
@[simp] theorem idle_mask0 (s : State) : (idle s).mask0 = s.mask0 := rfl
@[simp] theorem idle_mask1 (s : State) : (idle s).mask1 = s.mask1 := rfl
@[simp] theorem idle_maskI (s : State) : (idle s).maskI = s.maskI := rfl
@[simp] theorem idle_faulted (s : State) : (idle s).faulted = s.faulted := rfl
@[simp] theorem idle_err (s : State) : (idle s).err = s.err := rfl
@[simp] theorem idle_fcmd (s : State) : (idle s).fcmd = s.fcmd := rfl
@[simp] theorem idle_res (s : State) : (idle s).res = s.res := rfl
@[simp] theorem idle_host (s : State) : (idle s).host = { s.host with moves := [] } := rfl

/-! ## `answer` -/

@[simp] theorem answer_mem (r : HostReply) (s : State) : (answer r s).mem = s.mem := rfl
@[simp] theorem answer_mode (r : HostReply) (s : State) : (answer r s).mode = s.mode := rfl
@[simp] theorem answer_key (r : HostReply) (s : State) : (answer r s).key = s.key := rfl
@[simp] theorem answer_mask0 (r : HostReply) (s : State) : (answer r s).mask0 = s.mask0 := rfl
@[simp] theorem answer_mask1 (r : HostReply) (s : State) : (answer r s).mask1 = s.mask1 := rfl
@[simp] theorem answer_maskI (r : HostReply) (s : State) : (answer r s).maskI = s.maskI := rfl
@[simp] theorem answer_faulted (r : HostReply) (s : State) : (answer r s).faulted = s.faulted := rfl
@[simp] theorem answer_err (r : HostReply) (s : State) : (answer r s).err = s.err := rfl
@[simp] theorem answer_fcmd (r : HostReply) (s : State) : (answer r s).fcmd = s.fcmd := rfl
@[simp] theorem answer_res (r : HostReply) (s : State) : (answer r s).res = s.res := rfl
@[simp] theorem answer_host (r : HostReply) (s : State) : (answer r s).host = { s.host with reply := r } := rfl

/-! ## `planIssue` -/

@[simp] theorem planIssue_mem (w : CmdWord) (s : State) : (planIssue w s).mem = s.mem := rfl
@[simp] theorem planIssue_mode (w : CmdWord) (s : State) : (planIssue w s).mode = s.mode := rfl
@[simp] theorem planIssue_key (w : CmdWord) (s : State) : (planIssue w s).key = s.key := rfl
@[simp] theorem planIssue_mask0 (w : CmdWord) (s : State) : (planIssue w s).mask0 = s.mask0 := rfl
@[simp] theorem planIssue_mask1 (w : CmdWord) (s : State) : (planIssue w s).mask1 = s.mask1 := rfl
@[simp] theorem planIssue_maskI (w : CmdWord) (s : State) : (planIssue w s).maskI = s.maskI := rfl
@[simp] theorem planIssue_faulted (w : CmdWord) (s : State) : (planIssue w s).faulted = s.faulted := rfl
@[simp] theorem planIssue_err (w : CmdWord) (s : State) : (planIssue w s).err = s.err := rfl
@[simp] theorem planIssue_fcmd (w : CmdWord) (s : State) : (planIssue w s).fcmd = s.fcmd := rfl
@[simp] theorem planIssue_res (w : CmdWord) (s : State) : (planIssue w s).res = s.res := rfl
@[simp] theorem planIssue_host (w : CmdWord) (s : State) : (planIssue w s).host = { s.host with moves := .issue w :: s.host.moves } := rfl

/-! ## `resetWith` (R24) -/

@[simp] theorem State.resetWith_mem (c : Config) (h : HostSide) : (State.resetWith c h).mem = ⟨[], [], [], []⟩ := rfl
@[simp] theorem State.resetWith_mode (c : Config) (h : HostSide) : (State.resetWith c h).mode = .none := rfl
@[simp] theorem State.resetWith_key (c : Config) (h : HostSide) : (State.resetWith c h).key = zeros c.KL := rfl
@[simp] theorem State.resetWith_mask0 (c : Config) (h : HostSide) : (State.resetWith c h).mask0 = zeros c.BS := rfl
@[simp] theorem State.resetWith_mask1 (c : Config) (h : HostSide) : (State.resetWith c h).mask1 = zeros c.BS := rfl
@[simp] theorem State.resetWith_maskI (c : Config) (h : HostSide) : (State.resetWith c h).maskI = 0 := rfl
@[simp] theorem State.resetWith_faulted (c : Config) (h : HostSide) : (State.resetWith c h).faulted = false := rfl
@[simp] theorem State.resetWith_err (c : Config) (h : HostSide) : (State.resetWith c h).err = 0 := rfl
@[simp] theorem State.resetWith_fcmd (c : Config) (h : HostSide) : (State.resetWith c h).fcmd = 0 := rfl
@[simp] theorem State.resetWith_res (c : Config) (h : HostSide) : (State.resetWith c h).res = 0 := rfl
@[simp] theorem State.resetWith_host (c : Config) (h : HostSide) : (State.resetWith c h).host = h := rfl

end Sys2Proof.Machine
end

