-- ==== Sys2Proof/Laws/Operands.lean ====
section
/-! SUPPORT. The laws of the buffer file: a read after a write of the same slot gives the value written, a write leaves every
other slot alone, and every memory operation keeps `Memory.wf`. -/

namespace Sys2Proof.Machine

/-! ## Slots -/

@[simp] theorem Memory.get_set_same (m : Memory) (sl : Slot) (v : Bytes) : (m.set sl v).get sl = v := by
  cases sl <;> rfl

theorem Memory.get_set_other (m : Memory) {sl sl' : Slot} (v : Bytes) (h : sl' ≠ sl) :
    (m.set sl v).get sl' = m.get sl' := by
  cases sl <;> cases sl' <;> first | rfl | exact absurd rfl h

@[simp] theorem Memory.set_set (m : Memory) (sl : Slot) (v v' : Bytes) : (m.set sl v).set sl v' = m.set sl v' := by
  cases sl <;> rfl

@[simp] theorem Memory.set_get (m : Memory) (sl : Slot) : m.set sl (m.get sl) = m := by
  cases sl <;> rfl

/-- Two buffer files with the same four slots are equal. -/
theorem Memory.ext_get {m m' : Memory} (h : ∀ sl, m.get sl = m'.get sl) : m = m' := by
  cases m
  cases m'
  exact congr (congr (congr (congrArg Memory.mk (h .b0)) (h .b1)) (h .b2)) (h .b3)

theorem State.buf_congr {s t : State} (h : t.mem = s.mem) (sl : Slot) : t.buf sl = s.buf sl := by
  simp [State.buf, h]

@[simp] theorem State.buf_setBuf_same (s : State) (sl : Slot) (v : Bytes) : (s.setBuf sl v).buf sl = v :=
  Memory.get_set_same _ _ _

theorem State.buf_setBuf_other (s : State) {sl sl' : Slot} (v : Bytes) (h : sl' ≠ sl) :
    (s.setBuf sl v).buf sl' = s.buf sl' :=
  Memory.get_set_other _ _ h

@[simp] theorem State.len_setBuf_same (s : State) (sl : Slot) (v : Bytes) : (s.setBuf sl v).len sl = v.length := by
  simp [State.len]

theorem State.len_setBuf_other (s : State) {sl sl' : Slot} (v : Bytes) (h : sl' ≠ sl) :
    (s.setBuf sl v).len sl' = s.len sl' := by
  simp [State.len, State.buf_setBuf_other s v h]

theorem State.byteAt_eq (s : State) (sl : Slot) (off : Nat) : s.byteAt sl off = (s.buf sl)[off]? := rfl

@[simp] theorem raise_buf (k : FaultKind) (w : CmdWord) (s : State) (sl : Slot) : (raise k w s).buf sl = s.buf sl := rfl

@[simp] theorem raise_len (k : FaultKind) (w : CmdWord) (s : State) (sl : Slot) : (raise k w s).len sl = s.len sl := rfl

@[simp] theorem raise_byteAt (k : FaultKind) (w : CmdWord) (s : State) (sl : Slot) (off : Nat) :
    (raise k w s).byteAt sl off = s.byteAt sl off := rfl

@[simp] theorem State.setMask_buf (s : State) (i : BitVec 1) (v : Bytes) (sl : Slot) : (s.setMask i v).buf sl = s.buf sl := by
  simp [State.buf]

@[simp] theorem State.setMask_len (s : State) (i : BitVec 1) (v : Bytes) (sl : Slot) : (s.setMask i v).len sl = s.len sl := by
  simp [State.len]

@[simp] theorem State.resetWith_buf (c : Config) (h : HostSide) (sl : Slot) : (State.resetWith c h).buf sl = [] := by
  cases sl <;> rfl

@[simp] theorem State.resetWith_len (c : Config) (h : HostSide) (sl : Slot) : (State.resetWith c h).len sl = 0 := by
  simp [State.len]

/-- Equal slot contents are equal lengths and equal bytes at every offset. -/
theorem State.buf_eq_iff_byteAt (s t : State) (sl : Slot) :
    t.buf sl = s.buf sl ↔ ∀ off, t.byteAt sl off = s.byteAt sl off := by
  constructor
  · intro h off
    simp [State.byteAt_eq, h]
  · intro h
    exact List.ext_getElem? h

/-! ## Memory reads and writes -/

theorem memRead_length {s : State} {sl : Slot} {off n : Nat} (h : off + n ≤ s.len sl) : (memRead s sl off n).length = n := by
  simp only [State.len] at h
  simp only [memRead, List.length_take, List.length_drop]
  omega

/-- `MemWrite` puts the bytes at their place and leaves the rest of the slot alone. -/
theorem memWrite_buf_same (s : State) (sl : Slot) (off : Nat) (v : Bytes) :
    (memWrite s sl off v).buf sl = (s.buf sl).take off ++ v ++ (s.buf sl).drop (off + v.length) :=
  State.buf_setBuf_same _ _ _

theorem memWrite_buf_other (s : State) {sl sl' : Slot} (off : Nat) (v : Bytes) (h : sl' ≠ sl) :
    (memWrite s sl off v).buf sl' = s.buf sl' :=
  State.buf_setBuf_other _ _ h

/-- `MemWrite` inside the slot changes no length. -/
theorem memWrite_len {s : State} {sl : Slot} {off : Nat} {v : Bytes} (h : off + v.length ≤ s.len sl) (sl' : Slot) :
    (memWrite s sl off v).len sl' = s.len sl' := by
  by_cases hs : sl' = sl
  · subst hs
    simp only [State.len] at h ⊢
    simp only [memWrite_buf_same, List.length_append, List.length_take, List.length_drop]
    omega
  · simp [State.len, memWrite_buf_other s off v hs]

/-- A write of the whole slot. -/
theorem memWrite_whole {s : State} {sl : Slot} {v : Bytes} (h : v.length = s.len sl) : memWrite s sl 0 v = s.setBuf sl v := by
  simp only [State.len] at h
  simp [memWrite, h]

/-- A read of the whole slot. -/
theorem memRead_whole {s : State} {sl : Slot} {n : Nat} (h : s.len sl = n) : memRead s sl 0 n = s.buf sl := by
  simp only [State.len] at h
  simp [memRead, ← h]

/-! ## The canonical form of the buffer file -/

/-- `Memory.wf` says R12 of all four slots. -/
theorem Memory.wf_iff (c : Config) (m : Memory) : m.wf c = true ↔ ∀ sl, c.fits (m.get sl).length = true := by
  simp only [Memory.wf, Bool.and_eq_true]
  constructor
  · rintro ⟨⟨⟨h0, h1⟩, h2⟩, h3⟩ sl
    cases sl <;> assumption
  · intro h
    exact ⟨⟨⟨h .b0, h .b1⟩, h .b2⟩, h .b3⟩

/-- `fits` is downward closed. -/
theorem Config.fits_mono {c : Config} {m n : Nat} (h : m ≤ n) (hn : c.fits n = true) : c.fits m = true := by
  unfold Config.fits at *
  split <;> simp_all
  omega

/-- A write of content that fits keeps the form. -/
theorem Memory.wf_set {c : Config} {m : Memory} (h : m.wf c = true) (sl : Slot) {v : Bytes} (hv : c.fits v.length = true) :
    (m.set sl v).wf c = true := by
  rw [Memory.wf_iff] at *
  intro sl'
  by_cases hs : sl' = sl
  · simpa [hs] using hv
  · simpa [Memory.get_set_other m v hs] using h sl'

/-- `MemWrite` inside a slot keeps the form. -/
theorem memWrite_wf {c : Config} {s : State} (hs : s.mem.wf c = true) {sl : Slot} {off : Nat} {v : Bytes}
    (h : off + v.length ≤ s.len sl) : (memWrite s sl off v).mem.wf c = true := by
  rw [Memory.wf_iff] at *
  intro sl'
  have := memWrite_len h sl'
  simp only [State.len, State.buf] at this
  rw [this]
  exact hs sl'

/-- The empty buffers of reset have the form. -/
theorem State.resetWith_wf (c : Config) (h : HostSide) : (State.resetWith c h).mem.wf c = true := by
  rw [Memory.wf_iff]
  intro sl
  cases sl <;> simp [Memory.get, Config.fits] <;> split <;> simp

theorem State.reset_wf : State.reset.mem.wf Config.impl = true := State.resetWith_wf _ _

/-! ## The masks -/

@[simp] theorem otherMask_otherMask (i : BitVec 1) : otherMask (otherMask i) = i := by
  revert i
  decide

theorem otherMask_ne (i : BitVec 1) : otherMask i ≠ i := by
  revert i
  decide

@[simp] theorem State.mask_setMask_same (s : State) (i : BitVec 1) (v : Bytes) : (s.setMask i v).mask i = v := by
  simp only [State.mask, State.setMask_mask0, State.setMask_mask1]
  split <;> simp_all

theorem State.mask_setMask_other (s : State) {i j : BitVec 1} (v : Bytes) (h : j ≠ i) : (s.setMask i v).mask j = s.mask j := by
  have key : ∀ i j : BitVec 1, j ≠ i → (j = 0 ↔ ¬ i = 0) := by decide
  have := key i j h
  simp only [State.mask, State.setMask_mask0, State.setMask_mask1]
  by_cases hi : i = 0 <;> by_cases hj : j = 0 <;> simp_all

end Sys2Proof.Machine
end

