-- ==== Sys2Proof/Laws/Ops.lean ====
section
/-! SUPPORT. What the shared operations can do, said once each: the XOR, the padding, the unpad, the per-block steps and the
chunk loops. Later proofs cite these and do not unfold the operations. -/

namespace Sys2Proof

/-! ## The configuration -/

theorem Config.BS_pos (c : Config) : 1 ≤ c.BS := by simp [Config.BS]

theorem Config.BS_le (c : Config) : c.BS ≤ 255 := by
  have := c.bsPred.isLt
  simp only [Config.BS]
  omega

theorem Config.KL_pos (c : Config) : 1 ≤ c.KL := by simp [Config.KL]

@[simp] theorem Config.primEnc_length (c : Config) (k b : Bytes) : (c.primEnc k b).length = c.BS := by
  simp [Config.primEnc]

@[simp] theorem Config.primDec_length (c : Config) (k b : Bytes) : (c.primDec k b).length = c.BS := by
  simp [Config.primDec]

/-- "`CAP >= max(BS, KL)`" (R8): a key, an IV and a block can be loaded. -/
theorem Config.fits_of_le_max (c : Config) {n : Nat} (h : n ≤ max c.BS c.KL) : c.fits n = true := by
  unfold Config.fits Config.CAP
  cases c.capSpare
  · rfl
  · simp only [Option.map_some, decide_eq_true_eq]
    omega

/-- Every admissible parameter set of R5 to R8 is a configuration: nothing is lost by the way `Config` holds them. -/
theorem Config.exists_of_admissible (bs kl : Nat) (cap : Option Nat) (encf decf : Bytes → Bytes → Bytes)
    (hbs : 1 ≤ bs ∧ bs ≤ 255) (hkl : 1 ≤ kl) (hcap : ∀ n, cap = some n → max bs kl ≤ n)
    (henc : ∀ k b, (encf k b).length = bs) (hdec : ∀ k b, (decf k b).length = bs) :
    ∃ c : Config, c.BS = bs ∧ c.KL = kl ∧ c.CAP = cap ∧ c.primEnc = encf ∧ c.primDec = decf := by
  have hbs' : bs - 1 + 1 = bs := by omega
  have hkl' : kl - 1 + 1 = kl := by omega
  have reads : ∀ l : Bytes, l.length = bs → (List.range bs).map (fun j => l.getD j 0) = l := by
    intro l hl
    apply List.ext_getElem
    · simp [hl]
    · intro i h1 h2
      simp [List.getD_eq_getElem?_getD, h2]
  refine ⟨⟨⟨bs - 1, by omega⟩, kl - 1, cap.map (· - max bs kl), fun k b j => (encf k b).getD j 0,
    fun k b j => (decf k b).getD j 0⟩, hbs', hkl', ?_, ?_, ?_⟩
  · simp only [Config.CAP, Config.BS, Config.KL, hbs', hkl']
    cases cap with
    | none => rfl
    | some n =>
      have := hcap n rfl
      simp only [Option.map_some, Option.some.injEq]
      omega
  · funext k b
    simp only [Config.primEnc, Config.BS, hbs']
    exact reads _ (henc k b)
  · funext k b
    simp only [Config.primDec, Config.BS, hbs']
    exact reads _ (hdec k b)

end Sys2Proof

namespace Sys2Proof.Machine

/-! ## XOR (R70) -/

@[simp] theorem xorBytes_length (a b : Bytes) : (xorBytes a b).length = a.length := by simp [xorBytes]

/-- "byte i = a[i] XOR b[i mod len(b)]" (R70). -/
theorem xorBytes_getElem? (a b : Bytes) (i : Nat) : (xorBytes a b)[i]? = a[i]?.map (· ^^^ cyclicByte b i) := by
  simp [xorBytes, List.getElem?_mapIdx]

/-- On two blocks of one length no index wraps (R72 law 5). -/
theorem xorBytes_eq_xorBlock {a b : Bytes} (h : a.length = b.length) : xorBytes a b = xorBlock a b := by
  apply List.ext_getElem
  · simp [xorBlock, h]
  · intro i h1 h2
    have hb : i < b.length := by
      simp only [xorBytes_length] at h1
      omega
    simp [xorBytes, xorBlock, cyclicByte, Nat.mod_eq_of_lt hb, hb]

/-! ## Padding (R80, R82) -/

/-- "`pad_len = bs - (LEN mod bs)` is in `1..bs`" (R82). -/
theorem padLen_bounds {bs : Nat} (h : 1 ≤ bs) (n : Nat) : 1 ≤ padLen bs n ∧ padLen bs n ≤ bs := by
  have := Nat.mod_lt n h
  simp only [padLen]
  omega

@[simp] theorem padded_length (bs : Nat) (b : Bytes) : (padded bs b).length = b.length + padLen bs b.length := by
  simp [padded, rep]

/-- The padded length is a multiple of the block size: "`(LEN div bs + 1) * bs`" (R82). -/
theorem add_padLen {bs : Nat} (h : 1 ≤ bs) (n : Nat) : n + padLen bs n = (n / bs + 1) * bs := by
  have h1 := Nat.mod_lt n h
  have h2 := Nat.div_add_mod n bs
  simp only [padLen, Nat.add_mul, Nat.one_mul]
  rw [Nat.mul_comm (n / bs) bs]
  omega

/-! ## The unpad (R81) -/

/-- What the unpad can do: fault without a last byte, fault when the last byte is too large, or cut. -/
theorem cutPadding_cases (w : CmdWord) (rd : Slot) (s : State) :
    (s.buf rd = [] ∧ cutPadding w rd s = raise .emptyBuffer w s) ∨
    (∃ n, (s.buf rd).getLast? = some n ∧ n.toNat > s.len rd ∧ cutPadding w rd s = raise .padUnderflow w s) ∨
    (∃ n, (s.buf rd).getLast? = some n ∧ n.toNat ≤ s.len rd ∧
      cutPadding w rd s = s.setBuf rd ((s.buf rd).take (s.len rd - n.toNat))) := by
  unfold cutPadding lastByte?
  cases h : (s.buf rd).getLast? with
  | none => exact .inl ⟨by simpa using h, rfl⟩
  | some n =>
    by_cases hn : n.toNat > s.len rd
    · exact .inr (.inl ⟨n, rfl, hn, by simp [hn]⟩)
    · exact .inr (.inr ⟨n, rfl, by omega, by simp [hn]⟩)

/-! ## The per-block steps (R94, R95, R97, R98) -/

theorem encBlock_ecb {s : State} (h : s.mode = .ecb) (c : Config) (sl : Slot) (off : Nat) :
    encBlock c sl off s = memWrite s sl off (c.primEnc s.key (memRead s sl off c.BS)) := by
  simp [encBlock, h, encBlockEcb]

theorem encBlock_cbc {s : State} (h : s.mode = .cbc) (c : Config) (sl : Slot) (off : Nat) :
    encBlock c sl off s =
      (memWrite s sl off (c.primEnc s.key (xorBytes (memRead s sl off c.BS) s.curMask))).setMask s.maskI
        (c.primEnc s.key (xorBytes (memRead s sl off c.BS) s.curMask)) := by
  simp [encBlock, h, encBlockCbc]

theorem decBlock_ecb {s : State} (h : s.mode = .ecb) (c : Config) (sl : Slot) (off : Nat) :
    decBlock c sl off s = memWrite s sl off (c.primDec s.key (memRead s sl off c.BS)) := by
  simp [decBlock, h, decBlockEcb]

theorem decBlock_cbc {s : State} (h : s.mode = .cbc) (c : Config) (sl : Slot) (off : Nat) :
    decBlock c sl off s =
      { memWrite (s.setMask (otherMask s.maskI) (memRead s sl off c.BS)) sl off
          (xorBytes (c.primDec s.key (memRead s sl off c.BS)) s.curMask) with maskI := otherMask s.maskI } := by
  simp [decBlock, h, decBlockCbc]

/-- What no per-block encryption changes: every register but the slot and the current mask. -/
theorem encBlock_frame (c : Config) (sl : Slot) (off : Nat) (s : State) :
    (encBlock c sl off s).mode = s.mode ∧ (encBlock c sl off s).key = s.key ∧ (encBlock c sl off s).maskI = s.maskI ∧
    (encBlock c sl off s).nextMask = s.nextMask ∧ (encBlock c sl off s).faulted = s.faulted ∧
    (encBlock c sl off s).err = s.err ∧ (encBlock c sl off s).fcmd = s.fcmd ∧ (encBlock c sl off s).res = s.res ∧
    (encBlock c sl off s).host = s.host ∧ ∀ sl', sl' ≠ sl → (encBlock c sl off s).buf sl' = s.buf sl' := by
  cases h : s.mode with
  | none => simp [encBlock, h]
  | ecb =>
    rw [encBlock_ecb h]
    refine ⟨h, rfl, rfl, rfl, rfl, rfl, rfl, rfl, rfl, fun sl' hs => memWrite_buf_other s _ _ hs⟩
  | cbc =>
    rw [encBlock_cbc h]
    refine ⟨by simp [h], by simp, by simp, ?_, by simp, by simp, by simp, by simp, by simp, fun sl' hs => ?_⟩
    · simp only [State.nextMask, State.setMask_maskI, memWrite_maskI]
      exact State.mask_setMask_other _ _ (otherMask_ne _)
    · rw [State.setMask_buf]
      exact memWrite_buf_other s _ _ hs

/-- What no per-block decryption changes: every register but the slot, the masks and `MASK_I`. -/
theorem decBlock_frame (c : Config) (sl : Slot) (off : Nat) (s : State) :
    (decBlock c sl off s).mode = s.mode ∧ (decBlock c sl off s).key = s.key ∧
    (decBlock c sl off s).faulted = s.faulted ∧ (decBlock c sl off s).err = s.err ∧
    (decBlock c sl off s).fcmd = s.fcmd ∧ (decBlock c sl off s).res = s.res ∧ (decBlock c sl off s).host = s.host ∧
    ∀ sl', sl' ≠ sl → (decBlock c sl off s).buf sl' = s.buf sl' := by
  cases h : s.mode with
  | none => simp [decBlock, h]
  | ecb =>
    rw [decBlock_ecb h]
    exact ⟨h, rfl, rfl, rfl, rfl, rfl, rfl, fun sl' hs => memWrite_buf_other s _ _ hs⟩
  | cbc =>
    rw [decBlock_cbc h]
    refine ⟨by simp [h], by simp, by simp, by simp, by simp, by simp, by simp, fun sl' hs => ?_⟩
    have := memWrite_buf_other (s.setMask (otherMask s.maskI) (memRead s sl off c.BS)) off
      (xorBytes (c.primDec s.key (memRead s sl off c.BS)) s.curMask) hs
    simpa [State.buf] using this

/-- A per-block encryption inside the slot changes no length. -/
theorem encBlock_len {c : Config} {sl : Slot} {off : Nat} {s : State} (h : off + c.BS ≤ s.len sl) (sl' : Slot) :
    (encBlock c sl off s).len sl' = s.len sl' := by
  cases hm : s.mode with
  | none => simp [encBlock, hm]
  | ecb =>
    rw [encBlock_ecb hm]
    exact memWrite_len (by simpa using h) sl'
  | cbc =>
    rw [encBlock_cbc hm, State.setMask_len]
    exact memWrite_len (by simpa using h) sl'

/-- A per-block decryption inside the slot changes no length. -/
theorem decBlock_len {c : Config} {sl : Slot} {off : Nat} {s : State} (h : off + c.BS ≤ s.len sl) (sl' : Slot) :
    (decBlock c sl off s).len sl' = s.len sl' := by
  cases hm : s.mode with
  | none => simp [decBlock, hm]
  | ecb =>
    rw [decBlock_ecb hm]
    exact memWrite_len (by simpa using h) sl'
  | cbc =>
    rw [decBlock_cbc hm]
    have := memWrite_len (s := s.setMask (otherMask s.maskI) (memRead s sl off c.BS)) (sl := sl) (off := off)
      (v := xorBytes (c.primDec s.key (memRead s sl off c.BS)) s.curMask) (by simpa using h) sl'
    simpa [State.len, State.buf] using this

/-! ## The chunk loops (R110, R111) -/

/-- What the encryption of chunks never changes. -/
theorem encChunks_frame (c : Config) (sl : Slot) (n : Nat) (s : State) :
    (encChunks c sl n s).mode = s.mode ∧ (encChunks c sl n s).key = s.key ∧ (encChunks c sl n s).maskI = s.maskI ∧
    (encChunks c sl n s).nextMask = s.nextMask ∧ (encChunks c sl n s).faulted = s.faulted ∧
    (encChunks c sl n s).err = s.err ∧ (encChunks c sl n s).fcmd = s.fcmd ∧ (encChunks c sl n s).res = s.res ∧
    (encChunks c sl n s).host = s.host ∧ ∀ sl', sl' ≠ sl → (encChunks c sl n s).buf sl' = s.buf sl' := by
  induction n with
  | zero => simp [encChunks]
  | succ n ih =>
    obtain ⟨h1, h2, h3, h4, h5, h6, h7, h8, h9, h10⟩ := ih
    obtain ⟨g1, g2, g3, g4, g5, g6, g7, g8, g9, g10⟩ := encBlock_frame c sl (chunkOffset c n) (encChunks c sl n s)
    exact ⟨g1.trans h1, g2.trans h2, g3.trans h3, g4.trans h4, g5.trans h5, g6.trans h6, g7.trans h7, g8.trans h8,
      g9.trans h9, fun sl' hs => (g10 sl' hs).trans (h10 sl' hs)⟩

/-- What the decryption of chunks never changes. -/
theorem decChunks_frame (c : Config) (sl : Slot) (n : Nat) (s : State) :
    (decChunks c sl n s).mode = s.mode ∧ (decChunks c sl n s).key = s.key ∧
    (decChunks c sl n s).faulted = s.faulted ∧ (decChunks c sl n s).err = s.err ∧
    (decChunks c sl n s).fcmd = s.fcmd ∧ (decChunks c sl n s).res = s.res ∧ (decChunks c sl n s).host = s.host ∧
    ∀ sl', sl' ≠ sl → (decChunks c sl n s).buf sl' = s.buf sl' := by
  induction n with
  | zero => simp [decChunks]
  | succ n ih =>
    obtain ⟨h1, h2, h5, h6, h7, h8, h9, h10⟩ := ih
    obtain ⟨g1, g2, g5, g6, g7, g8, g9, g10⟩ := decBlock_frame c sl (chunkOffset c n) (decChunks c sl n s)
    exact ⟨g1.trans h1, g2.trans h2, g5.trans h5, g6.trans h6, g7.trans h7, g8.trans h8, g9.trans h9,
      fun sl' hs => (g10 sl' hs).trans (h10 sl' hs)⟩

/-- The encryption of the first `n` chunks changes no length when the slot has them. -/
theorem encChunks_len {c : Config} {sl : Slot} {n : Nat} {s : State} (h : n * c.BS ≤ s.len sl) (sl' : Slot) :
    (encChunks c sl n s).len sl' = s.len sl' := by
  revert sl'
  induction n with
  | zero => exact fun _ => rfl
  | succ n ih =>
    intro sl'
    have hn : n * c.BS + c.BS ≤ s.len sl := by simpa [Nat.add_mul] using h
    have hall := ih (by omega)
    exact (encBlock_len (by rw [hall sl]; simpa [chunkOffset] using hn) sl').trans (hall sl')

/-- The decryption of the first `n` chunks changes no length when the slot has them. -/
theorem decChunks_len {c : Config} {sl : Slot} {n : Nat} {s : State} (h : n * c.BS ≤ s.len sl) (sl' : Slot) :
    (decChunks c sl n s).len sl' = s.len sl' := by
  revert sl'
  induction n with
  | zero => exact fun _ => rfl
  | succ n ih =>
    intro sl'
    have hn : n * c.BS + c.BS ≤ s.len sl := by simpa [Nat.add_mul] using h
    have hall := ih (by omega)
    exact (decBlock_len (by rw [hall sl]; simpa [chunkOffset] using hn) sl').trans (hall sl')

end Sys2Proof.Machine
end

