-- ==== Sys2Proof/Laws/PerInstr.lean ====
section
/-! SUPPORT. Statements about every command as syntax, one lemma per constructor of `Instr`. -/

namespace Sys2Proof.Laws.EncodesInItsRow

/-- The word of a command satisfies `(w AND mask) = match` of its row (R54). -/
def Statement (i : Instr) : Prop := encode i &&& (rowOf i).2 = (rowOf i).1

theorem xor (rd ra rb : Slot) : Statement (.xor rd ra rb) := by
  cases rd <;> cases ra <;> cases rb <;> rfl

theorem xori (rd rb : Slot) : Statement (.xori rd rb) := by
  cases rd <;> cases rb <;> rfl

theorem pad (rd : Slot) (imm8 : BitVec 8) : Statement (.pad rd imm8) := by
  cases rd <;> (revert imm8; unfold Statement; decide)

theorem unpad (rd : Slot) : Statement (.unpad rd) := by
  cases rd <;> rfl

theorem ecbnew (ra : Slot) : Statement (.ecbnew ra) := by
  cases ra <;> rfl

theorem cbcnew (ra rb : Slot) : Statement (.cbcnew ra rb) := by
  cases ra <;> cases rb <;> rfl

theorem blksz : Statement .blksz := rfl

theorem encb (rd : Slot) : Statement (.encb rd) := by
  cases rd <;> rfl

theorem decb (rd : Slot) : Statement (.decb rd) := by
  cases rd <;> rfl

theorem enc (rd : Slot) : Statement (.enc rd) := by
  cases rd <;> rfl

theorem dec (rd : Slot) : Statement (.dec rd) := by
  cases rd <;> rfl

end Sys2Proof.Laws.EncodesInItsRow

namespace Sys2Proof.Laws.AllOperandsEncodable

/-- Every term of `Instr` is well-formed: "every value of a slot field is a valid slot" (R51), and every 8-bit immediate is in
0..255 (R53). -/
def Statement (i : Instr) : Prop := i.wf = true

/-- The number of a slot is a slot number. -/
theorem slot_num (sl : Slot) : slotOfNum? sl.num = some sl := by
  cases sl <;> rfl

theorem xor (rd ra rb : Slot) : Statement (.xor rd ra rb) := by
  simp [Statement, Instr.wf, slot_num]

theorem xori (rd rb : Slot) : Statement (.xori rd rb) := by
  simp [Statement, Instr.wf, slot_num]

theorem pad (rd : Slot) (imm8 : BitVec 8) : Statement (.pad rd imm8) := by
  have h : imm8.toNat ≤ 255 := by
    have := imm8.isLt
    omega
  simp [Statement, Instr.wf, slot_num, immOfNum?, h]

theorem unpad (rd : Slot) : Statement (.unpad rd) := by
  simp [Statement, Instr.wf, slot_num]

theorem ecbnew (ra : Slot) : Statement (.ecbnew ra) := by
  simp [Statement, Instr.wf, slot_num]

theorem cbcnew (ra rb : Slot) : Statement (.cbcnew ra rb) := by
  simp [Statement, Instr.wf, slot_num]

theorem blksz : Statement .blksz := rfl

theorem encb (rd : Slot) : Statement (.encb rd) := by
  simp [Statement, Instr.wf, slot_num]

theorem decb (rd : Slot) : Statement (.decb rd) := by
  simp [Statement, Instr.wf, slot_num]

theorem enc (rd : Slot) : Statement (.enc rd) := by
  simp [Statement, Instr.wf, slot_num]

theorem dec (rd : Slot) : Statement (.dec rd) := by
  simp [Statement, Instr.wf, slot_num]

end Sys2Proof.Laws.AllOperandsEncodable
end

