-- ==== Sys2Proof/Laws/Rules.lean ====
section
/-! SUPPORT. One inversion lemma per command rule: every outcome it can have, with its condition. -/

namespace Sys2Proof.Machine

theorem xorRule_cases (w : CmdWord) (rd ra rb : Slot) (s : State) :
    (s.len rb = 0 ∧ xorRule w rd ra rb s = raise .emptyKey w s) ∨
    (s.len rb ≠ 0 ∧ xorRule w rd ra rb s = s.setBuf rd (xorBytes (s.buf ra) (s.buf rb))) := by
  unfold xorRule
  split <;> simp_all

theorem xoriRule_cases (w : CmdWord) (rd rb : Slot) (s : State) :
    (s.len rb = 0 ∧ xoriRule w rd rb s = raise .emptyKey w s) ∨
    (s.len rb ≠ 0 ∧ xoriRule w rd rb s = s.setBuf rd (xorBytes (s.buf rd) (s.buf rb))) := by
  unfold xoriRule
  split <;> simp_all

theorem padRule_cases (c : Config) (w : CmdWord) (rd : Slot) (imm8 : BitVec 8) (s : State) :
    (imm8.toNat = 0 ∧ padRule c w rd imm8 s = raise .zeroBlockSize w s) ∨
    (imm8.toNat ≠ 0 ∧ c.fits (s.len rd + padLen imm8.toNat (s.len rd)) = false ∧
      padRule c w rd imm8 s = raise .capacity w s) ∨
    (imm8.toNat ≠ 0 ∧ c.fits (s.len rd + padLen imm8.toNat (s.len rd)) = true ∧
      padRule c w rd imm8 s = s.setBuf rd (padded imm8.toNat (s.buf rd))) := by
  by_cases hz : imm8.toNat = 0
  · simp [padRule, immValue, hz]
  · cases hf : c.fits (s.len rd + padLen imm8.toNat (s.len rd)) <;> simp [padRule, immValue, hz, hf]

theorem ecbnewRule_cases (c : Config) (w : CmdWord) (ra : Slot) (s : State) :
    (s.len ra ≠ c.KL ∧ ecbnewRule c w ra s = raise .keyLength w s) ∨
    (s.len ra = c.KL ∧ ecbnewRule c w ra s =
      { s with key := s.buf ra, mode := .ecb, mask0 := zeros c.BS, mask1 := zeros c.BS, maskI := 0 }) := by
  unfold ecbnewRule
  split <;> simp_all

theorem cbcnewRule_cases (c : Config) (w : CmdWord) (ra rb : Slot) (s : State) :
    (s.len ra ≠ c.KL ∧ cbcnewRule c w ra rb s = raise .keyLength w s) ∨
    (s.len ra = c.KL ∧ s.len rb ≠ c.BS ∧ cbcnewRule c w ra rb s = raise .ivLength w s) ∨
    (s.len ra = c.KL ∧ s.len rb = c.BS ∧ cbcnewRule c w ra rb s =
      { s with key := s.buf ra, mode := .cbc, maskI := 0, mask0 := s.buf rb, mask1 := zeros c.BS }) := by
  unfold cbcnewRule
  split
  · simp_all
  · split <;> simp_all

theorem blkszRule_cases (c : Config) (w : CmdWord) (s : State) :
    (s.mode = .none ∧ blkszRule c w s = raise .noMode w s) ∨
    (s.mode ≠ .none ∧ blkszRule c w s = { s with res := c.BS }) := by
  unfold blkszRule
  split <;> simp_all

theorem encbRule_cases (c : Config) (w : CmdWord) (rd : Slot) (s : State) :
    (s.mode = .none ∧ encbRule c w rd s = raise .noMode w s) ∨
    (s.mode ≠ .none ∧ s.len rd ≠ c.BS ∧ encbRule c w rd s = raise .blockLength w s) ∨
    (s.mode ≠ .none ∧ s.len rd = c.BS ∧ encbRule c w rd s = encBlock c rd 0 s) := by
  unfold encbRule
  split
  · simp_all
  · split <;> simp_all

theorem decbRule_cases (c : Config) (w : CmdWord) (rd : Slot) (s : State) :
    (s.mode = .none ∧ decbRule c w rd s = raise .noMode w s) ∨
    (s.mode ≠ .none ∧ s.len rd ≠ c.BS ∧ decbRule c w rd s = raise .blockLength w s) ∨
    (s.mode ≠ .none ∧ s.len rd = c.BS ∧ decbRule c w rd s = decBlock c rd 0 s) := by
  unfold decbRule
  split
  · simp_all
  · split <;> simp_all

theorem encRule_cases (c : Config) (w : CmdWord) (rd : Slot) (s : State) :
    (s.mode = .none ∧ encRule c w rd s = raise .noMode w s) ∨
    (s.mode ≠ .none ∧ c.fits (s.len rd + padLen c.BS (s.len rd)) = false ∧ encRule c w rd s = raise .capacity w s) ∨
    (s.mode ≠ .none ∧ c.fits (s.len rd + padLen c.BS (s.len rd)) = true ∧
      encRule c w rd s = encChunks c rd (s.len rd / c.BS + 1) (s.setBuf rd (padded c.BS (s.buf rd)))) := by
  unfold encRule
  by_cases hm : s.mode = .none
  · simp [hm]
  · by_cases hf : c.fits (s.len rd + padLen c.BS (s.len rd)) = true
    · have hn : (s.setBuf rd (padded c.BS (s.buf rd))).len rd / c.BS = s.len rd / c.BS + 1 := by
        rw [State.len_setBuf_same, padded_length]
        change (s.len rd + padLen c.BS (s.len rd)) / c.BS = _
        rw [add_padLen c.BS_pos]
        exact Nat.mul_div_cancel _ c.BS_pos
      exact .inr (.inr ⟨hm, hf, by simp only [hm, hf, if_true, if_false, hn]⟩)
    · simp [hm, hf]

theorem decRule_cases (c : Config) (w : CmdWord) (rd : Slot) (s : State) :
    (s.mode = .none ∧ decRule c w rd s = raise .noMode w s) ∨
    (s.mode ≠ .none ∧ s.len rd % c.BS ≠ 0 ∧ decRule c w rd s = raise .misaligned w s) ∨
    (s.mode ≠ .none ∧ s.len rd % c.BS = 0 ∧ s.len rd = 0 ∧ decRule c w rd s = raise .emptyBuffer w s) ∨
    (s.mode ≠ .none ∧ s.len rd % c.BS = 0 ∧ s.len rd ≠ 0 ∧
      decRule c w rd s = cutPadding w rd (decChunks c rd (s.len rd / c.BS) s)) := by
  unfold decRule
  split
  · simp_all
  · split
    · simp_all
    · split <;> simp_all

end Sys2Proof.Machine
end

