-- ==== Sys2Proof/Laws/Step.lean ====
section
/-! SUPPORT. What a transaction and a step can do, said once: later proofs take these cases and do not unfold `step`. -/

namespace Sys2Proof.Machine

/-- `HostWrite` writes the slot or changes nothing (R38). -/
theorem hostWrite_cases (c : Config) (sl : Slot) (v : Bytes) (s : State) :
    (s.faulted = false ∧ c.fits v.length = true ∧ hostWrite c sl v s = s.setBuf sl v) ∨
    ((s.faulted = true ∨ c.fits v.length = false) ∧ hostWrite c sl v s = s) := by
  unfold hostWrite
  cases hf : s.faulted <;> cases hv : c.fits v.length <;> simp

/-- The word of the host's next issue, carried out (R41, R134). -/
theorem issueWord_cases {w : CmdWord} {s : State} {o : Host.Outcome State Fault Refusal} (h : issueWord w s = o) :
    (s.faulted = true ∧ o = .next s) ∨
    (s.faulted = false ∧ (∃ why, decode w = .illegal why) ∧ o = .next (raise .illegalCommand w s)) ∨
    (s.faulted = false ∧ ∃ i, decode w = .command i ∧ o = exec i s) := by
  subst h
  unfold issueWord
  cases hf : s.faulted
  · cases hd : decode w with
    | command i => exact .inr (.inr ⟨rfl, i, rfl, rfl⟩)
    | illegal why => exact .inr (.inl ⟨rfl, ⟨why, rfl⟩, rfl⟩)
  · exact .inl ⟨rfl, rfl⟩

/-! ## The moves still to come -/

@[simp] theorem pending_nil {c : Config} {s : State} (h : s.host.moves = []) : pending c s = [] := by
  simp [pending, h]

/-- A move the host has is the next one. -/
theorem pending_of_allowed {c : Config} {s : State} {m : HostMove} {rest : List HostMove} (h : s.host.moves = m :: rest)
    (hm : allowed c s m = true) : pending c s = m :: rest := by
  simp [pending, h, hm]

/-- A write that would be refused is passed over. -/
theorem pending_of_refused {c : Config} {s : State} {m : HostMove} {rest : List HostMove} (h : s.host.moves = m :: rest)
    (hm : allowed c s m = false) : pending c s = pending c { s with host := { s.host with moves := rest } } := by
  simp only [pending, h, List.dropWhile_cons, hm]
  rfl

/-- The next move is one the host has. -/
theorem allowed_of_pending {c : Config} {s : State} {m : HostMove} {rest : List HostMove} (h : pending c s = m :: rest) :
    allowed c s m = true := by
  have hd := List.head?_dropWhile_not (fun m => !allowed c s m) s.host.moves
  unfold pending at h
  simpa [h] using hd

/-- The move that a write makes finds FAULTED clear and content that fits. -/
theorem pending_write {c : Config} {s : State} {sl : Slot} {v : Bytes} {rest : List HostMove}
    (h : pending c s = .write sl v :: rest) : s.faulted = false ∧ c.fits v.length = true := by
  have ha := allowed_of_pending h
  simpa [allowed, HostMove.wf] using ha

/-- One step, by the host's next move (R10, R38 to R42). -/
theorem step_cases {s t : State} (h : step s = .next t) :
    (pending Config.impl s = [] ∧ t = idle s) ∨
    ∃ rest,
      (∃ sl v, pending Config.impl s = .write sl v :: rest ∧ t = (takeMove rest s).setBuf sl v) ∨
      (∃ sl, pending Config.impl s = .read sl :: rest ∧ t = hostRead sl (takeMove rest s)) ∨
      (pending Config.impl s = .status :: rest ∧ t = hostStatus (takeMove rest s)) ∨
      (pending Config.impl s = .reset :: rest ∧ t = hostReset Config.impl (takeMove rest s)) ∨
      (∃ w, pending Config.impl s = .issue w :: rest ∧ issueWord w (takeIssue rest s) = .next t) := by
  unfold step at h
  split at h
  · next hm => exact .inl ⟨hm, (Host.Outcome.next.inj h).symm⟩
  · next m rest hm =>
    refine .inr ⟨rest, ?_⟩
    rw [hm]
    cases m with
    | write sl v =>
      obtain ⟨hf, hv⟩ := pending_write hm
      have e : hostWrite Config.impl sl v (takeMove rest s) = (takeMove rest s).setBuf sl v := by
        simp [hostWrite, hf, hv]
      exact .inl ⟨sl, v, rfl, (Host.Outcome.next.inj h).symm.trans e⟩
    | read sl => exact .inr (.inl ⟨sl, rfl, (Host.Outcome.next.inj h).symm⟩)
    | status => exact .inr (.inr (.inl ⟨rfl, (Host.Outcome.next.inj h).symm⟩))
    | reset => exact .inr (.inr (.inr (.inl ⟨rfl, (Host.Outcome.next.inj h).symm⟩)))
    | issue w => exact .inr (.inr (.inr (.inr ⟨w, rfl, h⟩)))

/-! ## The host's side under the transactions -/

@[simp] theorem takeMove_buf (rest : List HostMove) (s : State) (sl : Slot) : (takeMove rest s).buf sl = s.buf sl := rfl

@[simp] theorem takeIssue_buf (rest : List HostMove) (s : State) (sl : Slot) : (takeIssue rest s).buf sl = s.buf sl := rfl

/-- `HostWrite` leaves the host as it is. -/
theorem hostWrite_host (c : Config) (sl : Slot) (v : Bytes) (s : State) : (hostWrite c sl v s).host = s.host := by
  rcases hostWrite_cases c sl v s with ⟨-, -, e⟩ | ⟨-, e⟩ <;> rw [e]
  rfl

/-- Every transaction of `HostWrite` keeps the canonical form of the buffer file (R12). -/
theorem hostWrite_wf {c : Config} {s : State} (hs : s.mem.wf c = true) (sl : Slot) (v : Bytes) :
    (hostWrite c sl v s).mem.wf c = true := by
  rcases hostWrite_cases c sl v s with ⟨-, hv, e⟩ | ⟨-, e⟩ <;> rw [e]
  · exact Memory.wf_set hs sl hv
  · exact hs

end Sys2Proof.Machine
end

