-- ==== Sys2Proof/Tests/Slice0.lean ====
section
/-! SUPPORT. Our own tests. Expected values come from 95_test_vectors.md (its vector names are given) or from the rules;
then, for every statement that has hypotheses, a theorem that shows a state and operands that meet them. -/

open Sys2Proof Sys2Proof.Machine

namespace Sys2Proof.Tests

/-! ## Well-formedness: what each check refuses -/

theorem test_slot_number_4_refused : slotOfNum? 4 = none ∧ slotOfNum? 3 = some .b3 := by decide

theorem test_immediate_256_refused : immOfNum? 256 = none ∧ immOfNum? 255 = some 255 := by decide

/-- The configuration of 95_test_vectors.md section 2: `BS = KL = 4`, `CAP = 16`, the test primitive `T`. -/
def T : Config where
  bsPred := 3
  klPred := 3
  capSpare := some 12
  primEncByte := fun k b j => b.getD ((j + 1) % 4) 0 + k.getD j 0
  primDecByte := fun k b j => b.getD ((j + 3) % 4) 0 - k.getD ((j + 3) % 4) 0

theorem test_configuration : T.BS = 4 ∧ T.KL = 4 ∧ T.CAP = some 16 := by decide

theorem test_refused_writes_are_no_moves :
    HostMove.wf T false (.write .b0 (zeros 17)) = false ∧ HostMove.wf T false (.write .b0 (zeros 16)) = true ∧
    HostMove.wf T true (.write .b0 [0x5A, 0x5A]) = false ∧ HostMove.wf T true .reset = true := by decide

/-! ## Decoding: words of 95_test_vectors.md section 3, one for every command -/

theorem test_decode_xor : decode 0b0001_10_00_01_000000 = .command (.xor .b2 .b0 .b1) := by decide
theorem test_decode_xori : decode 0b0010_10_00_01_000000 = .command (.xori .b2 .b1) := by decide
theorem test_decode_pad : decode 0b0011_11_00_11111111 = .command (.pad .b3 255) := by decide
theorem test_decode_unpad : decode 0b0100_10_00_00_000000 = .command (.unpad .b2) := by decide
theorem test_decode_ecbnew : decode 0b0101_00_01_00_000000 = .command (.ecbnew .b1) := by decide
theorem test_decode_cbcnew : decode 0b0110_00_01_10_000000 = .command (.cbcnew .b1 .b2) := by decide
theorem test_decode_blksz : decode 0b0111_00_00_00_000000 = .command .blksz := by decide
theorem test_decode_encb : decode 0b1000_00_00_00_000000 = .command (.encb .b0) := by decide
theorem test_decode_decb : decode 0b1001_00_00_00_000000 = .command (.decb .b0) := by decide
theorem test_decode_enc : decode 0b1010_11_00_00_000000 = .command (.enc .b3) := by decide
theorem test_decode_dec : decode 0b1011_00_00_00_000000 = .command (.dec .b0) := by decide

theorem test_encode_words :
    encode (.xor .b3 .b3 .b3) = 0x1FC0 ∧ encode (.xori .b0 .b2) = 0x2080 ∧ encode (.pad .b1 4) = 0x3404 ∧
    encode (.unpad .b1) = 0x4400 ∧ encode (.cbcnew .b1 .b1) = 0x6140 ∧ encode (.enc .b3) = 0xAC00 := by decide

theorem test_illegal_words :
    [0x0000, 0xFFFF, 0xC000, 0xF000].all (fun w => decode w == .illegal .reservedOp) = true ∧
    [0x1841, 0x2140, 0x3108, 0x4001, 0x5500, 0x5101, 0x6181, 0x6580, 0x7001, 0x7400, 0x8100, 0xB020].all
      (fun w => decode w == .illegal .mustBeZeroBit) = true := by decide

theorem test_table_word : decodeTableWord 16 0x3C14 = some (.pad .b3 20) ∧ decodeTableWord 16 0x0000 = none := by decide

theorem test_row_masks_do_not_overlap :
    opRows.Pairwise (fun r r' => r.pattern &&& 0xF000 ≠ r'.pattern &&& 0xF000) := by decide

/-- The written forms of R59. -/
theorem test_written_form :
    asmText (.xor .b2 .b0 .b1) = "XOR b2, b0, b1".toList ∧ readLine "PAD b0, 0x10 ; pad".toList = .command (.pad .b0 16) ∧
    readLine "PAD b0, 256".toList = .malformed ∧ readLine "; only a comment".toList = .blank ∧
    asmTextHex (.pad .b3 255) = "PAD b3, 0xFF".toList ∧ readLine "PAD b3, 0xff".toList = .command (.pad .b3 255) := by decide

/-! ## One step of each command, on small states -/

/-- An engine just reset with configuration `T`, with three slots loaded. -/
def tState (b0 b1 b2 : Bytes) : State := { State.resetWith T HostSide.idle with mem := ⟨b0, b1, b2, []⟩ }

/-- The same with an ECB context of key `01 02 03 04` (B0). -/
def tEcb (b0 : Bytes) : State := { tState b0 [] [] with mode := .ecb, key := [1, 2, 3, 4] }

/-- The same with a CBC context of that key and IV `10 20 30 40` (B1). -/
def tCbc (b0 : Bytes) : State :=
  { tState b0 [] [] with mode := .cbc, key := [1, 2, 3, 4], mask0 := [0x10, 0x20, 0x30, 0x40] }

/-- X0, X6. -/
theorem test_xor :
    (xorRule 0x1840 .b2 .b0 .b1 (tState [0x41, 0x42, 0x43, 0x44, 0x45] [1, 2] [])).buf .b2 = [0x40, 0x40, 0x42, 0x46, 0x44] ∧
    (xorRule 0x1440 .b1 .b0 .b1 (tState [0x41, 0x42, 0x43, 0x44, 0x45] [1, 2] [])).buf .b1 = [0x40, 0x40, 0x42, 0x46, 0x44] := by
  decide

/-- X3: an empty key faults even with empty data. -/
theorem test_xor_empty_key :
    xorRule 0x1840 .b2 .b0 .b1 (tState [] [] [9, 9]) =
      { tState [] [] [9, 9] with faulted := true, err := 2, fcmd := 0x1840 } := by decide

/-- X15, X8. -/
theorem test_xori :
    (xoriRule 0x2040 .b0 .b1 (tState [0x40, 0x40, 0x42, 0x46, 0x44] [1, 2] [])).buf .b0 = [0x41, 0x42, 0x43, 0x44, 0x45] ∧
    (xoriRule 0x2000 .b0 .b0 (tState [0x41, 0x42, 0x43] [] [])).buf .b0 = [0, 0, 0] := by decide

/-- A0, A4. -/
theorem test_pad :
    (padRule T 0x3008 .b0 8 (tState [0x59, 0x45, 0x4C, 0x4C, 0x4F] [] [])).buf .b0 =
      [0x59, 0x45, 0x4C, 0x4C, 0x4F, 3, 3, 3] ∧
    (padRule T 0x3004 .b0 4 (tState [0x41, 0x42, 0x43, 0x44, 0x45, 0x46, 0x47, 0x48] [] [])).buf .b0 =
      [0x41, 0x42, 0x43, 0x44, 0x45, 0x46, 0x47, 0x48, 4, 4, 4, 4] := by decide

/-- A3, A7, A6: the faults of PAD, and a result of exactly `CAP` bytes. -/
theorem test_pad_faults :
    (padRule T 0x3000 .b0 0 (tState [1, 2, 3] [] [])).err = 3 ∧ (padRule T 0x3004 .b0 4 (tState (zeros 16) [] [])).err = 4 ∧
    (padRule T 0x3004 .b0 4 (tState (zeros 15) [] [])).len .b0 = 16 := by decide

/-- U1, U2, U3. -/
theorem test_unpad :
    (unpadRule 0x4000 .b0 (tState [0x41, 0x42, 0x43, 2] [] [])).buf .b0 = [0x41, 0x42] ∧
    (unpadRule 0x4000 .b0 (tState [0x41, 0x42, 0] [] [])).buf .b0 = [0x41, 0x42, 0] ∧
    (unpadRule 0x4000 .b0 (tState [3, 3, 3] [] [])).buf .b0 = [] := by decide

/-- U4, U5. -/
theorem test_unpad_faults :
    (unpadRule 0x4000 .b0 (tState [3, 4, 4] [] [])).err = 6 ∧ (unpadRule 0x4000 .b0 (tState [] [] [])).err = 5 := by decide

/-- B0, B12, and the fault vector of code 8. -/
theorem test_ecbnew :
    ecbnewRule T 0x5100 .b1 { tCbc [] with mem := ⟨[], [1, 2, 3, 4], [], []⟩ } =
      { tEcb [] with mem := ⟨[], [1, 2, 3, 4], [], []⟩ } ∧
    (ecbnewRule T 0x5100 .b1 (tState [] [1, 2, 3] [])).err = 8 := by decide

/-- B1, and the fault vector where both lengths are wrong. -/
theorem test_cbcnew :
    cbcnewRule T 0x6180 .b1 .b2 (tState [] [1, 2, 3, 4] [0x10, 0x20, 0x30, 0x40]) =
      { tCbc [] with mem := ⟨[], [1, 2, 3, 4], [0x10, 0x20, 0x30, 0x40], []⟩ } ∧
    (cbcnewRule T 0x6180 .b1 .b2 (tState [] [1, 2, 3] [1])).err = 8 ∧
    (cbcnewRule T 0x6180 .b1 .b2 (tState [] [1, 2, 3, 4] [1])).err = 9 := by decide

/-- B2, and the fault vector of code 7. -/
theorem test_blksz : (blkszRule T 0x7000 (tCbc [])).res = 4 ∧ (blkszRule T 0x7000 (tState [] [] [])).err = 7 := by decide

/-- B3, B5. -/
theorem test_encb :
    (encbRule T 0x8000 .b0 (tEcb [0x41, 0x42, 0x43, 0x44])).buf .b0 = [0x43, 0x45, 0x47, 0x45] ∧
    encbRule T 0x8000 .b0 (tCbc [0x41, 0x42, 0x43, 0x44]) =
      { tCbc [0x63, 0x75, 0x07, 0x55] with mask0 := [0x63, 0x75, 0x07, 0x55] } := by decide

/-- B4, B7. -/
theorem test_decb :
    (decbRule T 0x9000 .b0 (tEcb [0x43, 0x45, 0x47, 0x45])).buf .b0 = [0x41, 0x42, 0x43, 0x44] ∧
    decbRule T 0x9000 .b0 (tCbc [0x63, 0x75, 0x07, 0x55]) =
      { tCbc [0x41, 0x42, 0x43, 0x44] with mask1 := [0x63, 0x75, 0x07, 0x55], maskI := 1 } := by decide

/-- W5. -/
theorem test_enc_cbc :
    encRule T 0xA000 .b0 (tCbc [0x59, 0x45, 0x4C, 0x4C, 0x4F, 0x57, 0x20, 0x53, 0x55, 0x42]) =
      { tCbc [0x66, 0x7E, 0x0F, 0x4D, 0x2A, 0x31, 0x21, 0x2D, 0x74, 0x25, 0x32, 0x83] with
        mask0 := [0x74, 0x25, 0x32, 0x83] } := by decide

/-- W0, W9. -/
theorem test_enc_ecb :
    (encRule T 0xA000 .b0 (tEcb [])).buf .b0 = [5, 6, 7, 8] ∧ (encRule T 0xA000 .b0 (tEcb (zeros 16))).err = 4 := by decide

/-- W6. -/
theorem test_dec_cbc :
    decRule T 0xB000 .b0 (tCbc [0x66, 0x7E, 0x0F, 0x4D, 0x2A, 0x31, 0x21, 0x2D, 0x74, 0x25, 0x32, 0x83]) =
      { tCbc [0x59, 0x45, 0x4C, 0x4C, 0x4F, 0x57, 0x20, 0x53, 0x55, 0x42] with
        mask0 := [0x2A, 0x31, 0x21, 0x2D], mask1 := [0x74, 0x25, 0x32, 0x83], maskI := 1 } := by decide

/-- W12, W10, W11: the one fault that leaves a change, and the two tested before. -/
theorem test_dec_faults :
    decRule T 0xB000 .b0 (tEcb [1, 2, 0x0C, 4]) = { tEcb [0, 0, 0, 9] with faulted := true, err := 6, fcmd := 0xB000 } ∧
    (decRule T 0xB000 .b0 (tEcb [1, 1, 1, 1, 1])).err = 11 ∧ (decRule T 0xB000 .b0 (tEcb [])).err = 5 := by decide

/-! ## The host's transactions (95_test_vectors.md section 8) -/

/-- The moves still to come: a write of 17 bytes is passed over with `CAP = 16`, one of 16 bytes is not. -/
theorem test_pending :
    pending T { tState [] [] [] with host := ⟨[.write .b0 (zeros 17), .write .b1 (zeros 16), .reset], 0, .nothing⟩ } =
      [.write .b1 (zeros 16), .reset] := by decide

/-- Step 9: a write above `CAP` is refused; one of exactly `CAP` bytes is not. -/
theorem test_host_write :
    hostWrite T .b0 (zeros 17) (tState [] [] []) = tState [] [] [] ∧
    (hostWrite T .b0 (zeros 16) (tState [] [] [])).len .b0 = 16 := by decide

/-- A state after reset whose host makes the one move `m`, with slot 0 loaded. -/
def plan (m : HostMove) (b0 : Bytes) : State :=
  { State.reset with mem := ⟨b0, [], [], []⟩, host := ⟨[m], 0, .nothing⟩ }

/-- Step 2: the empty key of slot 3 faults, and the host's position moves on (R21). -/
theorem test_step_fault :
    ∃ t, step (plan (.issue 0x18C0) [0x41, 0x42, 0x43]) = .next t ∧ t.faulted = true ∧ t.err = 2 ∧ t.fcmd = 0x18C0 ∧
      t.mem = ⟨[0x41, 0x42, 0x43], [], [], []⟩ ∧ t.host.pc = 1 := ⟨_, rfl, rfl, rfl, rfl, rfl, rfl⟩

/-- Steps 3 and 4: a faulted engine ignores a legal word and an illegal word. -/
theorem test_faulted_engine_ignores :
    [.issue 0x3004, .issue 0x0000].all (fun m =>
      match step { plan m [0x41, 0x42, 0x43] with faulted := true, err := 2, fcmd := 0x18C0 } with
      | .next t => t.mem == ⟨[0x41, 0x42, 0x43], [], [], []⟩ && t.err == 2 && t.fcmd == 0x18C0 && t.host.pc == 1
      | _ => false) = true := by rfl

/-- Steps 5 and 6: the refused write is no move, so the read after it is the move this step makes. -/
theorem test_refused_write_is_no_move :
    ∃ t, step { plan .reset [0x41, 0x42, 0x43] with
        faulted := true, err := 2, fcmd := 0x18C0, host := ⟨[.write .b0 [0x5A, 0x5A], .read .b0, .reset], 0, .nothing⟩ } =
      .next t ∧ t.host = ⟨[.reset], 0, .bytes [0x41, 0x42, 0x43]⟩ := ⟨_, rfl, rfl⟩

/-- Steps 6 and 7. -/
theorem test_faulted_engine_answers :
    [HostMove.read .b0, .status].map (fun m =>
      match step { plan m [0x41, 0x42, 0x43] with faulted := true, err := 2, fcmd := 0x18C0 } with
      | .next t => t.host.reply
      | _ => .nothing) = [.bytes [0x41, 0x42, 0x43], .status true 2 0x18C0 0] := by rfl

/-- Step 8. -/
theorem test_reset_empties :
    ∃ t, step { plan .reset [0x41] with faulted := true, err := 2, fcmd := 0x18C0 } = .next t ∧
      t.mem = ⟨[], [], [], []⟩ ∧ t.faulted = false ∧ t.err = 0 ∧ t.fcmd = 0 := ⟨_, rfl, rfl, rfl, rfl, rfl⟩

/-- A table word runs as the first command after reset (0x2040, X10's empty key). -/
theorem test_fetch_word :
    ∃ t, step (State.reset.withFetchWord 16 0x2040) = .next t ∧ t.err = 2 ∧ t.fcmd = 0x2040 := ⟨_, rfl, rfl, rfl⟩

/-! ## Witnesses: for every statement with hypotheses, a state and operands that meet them all -/

/-- The engine's own key, IV and block of zero bytes, and contexts made of them. -/
def key0 : Bytes := zeros Config.impl.KL

/-- One block of zero bytes. -/
def block0 : Bytes := zeros Config.impl.BS

/-- An ECB context of the engine's own configuration, with slot 0 and slot 1 loaded. -/
def wEcb (b0 b1 : Bytes) : State := { State.reset with mem := ⟨b0, b1, [], []⟩, mode := .ecb }

/-- A CBC context of the engine's own configuration, with slot 0 and slot 1 loaded. -/
def wCbc (b0 b1 : Bytes) : State := { State.reset with mem := ⟨b0, b1, [], []⟩, mode := .cbc }

/-- Slots loaded, no context. -/
def wBufs (b0 b1 : Bytes) : State := { State.reset with mem := ⟨b0, b1, [], []⟩ }

theorem key0_length : key0.length = Config.impl.KL := by simp [key0, zeros, rep]

theorem block0_length : block0.length = Config.impl.BS := by simp [block0, zeros, rep]

theorem impl_fits_BS : Config.impl.fits Config.impl.BS = true := Config.fits_of_le_max _ (by omega)

theorem impl_fits_one : Config.impl.fits 1 = true :=
  Config.fits_of_le_max _ (by have := Config.BS_pos Config.impl; omega)

theorem witness_decode_of_encode : (Instr.pad .b3 255).wf = true := by decide

theorem witness_encode_of_decode : decode 0xFC0 = .illegal .reservedOp ∧ decode 0x1FC0 = .command (.xor .b3 .b3 .b3) := by
  decide

/-- `DecodedOperandsAreTheFields`: one word for every form, beside the decode tests above, at the ends of the fields. -/
theorem witness_decoded_operands :
    decode 0x1FC0 = .command (.xor .b3 .b3 .b3) ∧ decode 0x2CC0 = .command (.xori .b3 .b3) ∧
    decode 0x3C00 = .command (.pad .b3 0) ∧ decode 0x4C00 = .command (.unpad .b3) ∧ decode 0x5300 = .command (.ecbnew .b3) ∧
    decode 0x63C0 = .command (.cbcnew .b3 .b3) ∧ decode 0x7000 = .command .blksz ∧ decode 0x8C00 = .command (.encb .b3) ∧
    decode 0x9C00 = .command (.decb .b3) ∧ decode 0xAC00 = .command (.enc .b3) ∧ decode 0xBC00 = .command (.dec .b3) := by
  decide

/-- `ReservedOpWordsAreIllegal`: both ends of both ranges. -/
theorem witness_reserved_op :
    (0x0000 : CmdWord).toNat / 0x1000 = 0 ∧ (0x0FFF : CmdWord).toNat / 0x1000 = 0 ∧
    0xC ≤ (0xC000 : CmdWord).toNat / 0x1000 ∧ 0xC ≤ (0xFFFF : CmdWord).toNat / 0x1000 := by decide

/-- `MustBeZeroBitsMakeAWordIllegal`: the premise's `op` and bit, for each of the eleven formats' rows. -/
theorem witness_must_be_zero :
    (0x1841 : CmdWord).toNat / 0x1000 = 0x1 ∧ (0x1841 : CmdWord) &&& 0x003F ≠ 0 ∧
    (0x2140 : CmdWord).toNat / 0x1000 = 0x2 ∧ (0x2140 : CmdWord) &&& 0x033F ≠ 0 ∧
    (0x3108 : CmdWord).toNat / 0x1000 = 0x3 ∧ (0x3108 : CmdWord) &&& 0x0300 ≠ 0 ∧
    (0x4001 : CmdWord).toNat / 0x1000 = 0x4 ∧ (0x4001 : CmdWord) &&& 0x03FF ≠ 0 ∧
    (0x5500 : CmdWord).toNat / 0x1000 = 0x5 ∧ (0x5500 : CmdWord) &&& 0x0CFF ≠ 0 ∧
    (0x6580 : CmdWord).toNat / 0x1000 = 0x6 ∧ (0x6580 : CmdWord) &&& 0x0C3F ≠ 0 ∧
    (0x7400 : CmdWord).toNat / 0x1000 = 0x7 ∧ (0x7400 : CmdWord) &&& 0x0FFF ≠ 0 ∧
    (0x8100 : CmdWord).toNat / 0x1000 = 0x8 ∧ (0x8100 : CmdWord) &&& 0x03FF ≠ 0 ∧
    (0x9200 : CmdWord).toNat / 0x1000 = 0x9 ∧ (0x9200 : CmdWord) &&& 0x03FF ≠ 0 ∧
    (0xA001 : CmdWord).toNat / 0x1000 = 0xA ∧ (0xA001 : CmdWord) &&& 0x03FF ≠ 0 ∧
    (0xB020 : CmdWord).toNat / 0x1000 = 0xB ∧ (0xB020 : CmdWord) &&& 0x03FF ≠ 0 := by decide

theorem witness_step_runs :
    (plan (.issue 0x1840) [1]).host.moves = .issue 0x1840 :: [] ∧ (plan (.issue 0x1840) [1]).faulted = false ∧
    (Instr.xor .b2 .b0 .b1).wf = true ∧ decode 0x1840 = .command (.xor .b2 .b0 .b1) := ⟨rfl, rfl, by decide, by decide⟩

theorem witness_illegal_word :
    (plan (.issue 0x1841) []).host.moves = .issue 0x1841 :: [] ∧ (plan (.issue 0x1841) []).faulted = false ∧
    (0x1841 : CmdWord) &&& 0xF03F ≠ 0x1000 ∧ (0x1841 : CmdWord) &&& 0xF33F ≠ 0x2000 ∧
    (0x1841 : CmdWord) &&& 0xF300 ≠ 0x3000 ∧ (0x1841 : CmdWord) &&& 0xF3FF ≠ 0x4000 ∧
    (0x1841 : CmdWord) &&& 0xFCFF ≠ 0x5000 ∧ (0x1841 : CmdWord) &&& 0xFC3F ≠ 0x6000 ∧
    (0x1841 : CmdWord) &&& 0xFFFF ≠ 0x7000 ∧ (0x1841 : CmdWord) &&& 0xF3FF ≠ 0x8000 ∧
    (0x1841 : CmdWord) &&& 0xF3FF ≠ 0x9000 ∧ (0x1841 : CmdWord) &&& 0xF3FF ≠ 0xA000 ∧
    (0x1841 : CmdWord) &&& 0xF3FF ≠ 0xB000 := by
  refine ⟨rfl, rfl, ?_⟩
  decide

/-- `FaultedEngineOnlyAnswersAndResets`: a faulted state, whatever the move (each of the five is one clause). -/
theorem witness_faulted_engine (m : HostMove) :
    { plan m [0x41] with faulted := true, err := 2, fcmd := 0x18C0 }.host.moves = m :: [] ∧
    { plan m [0x41] with faulted := true, err := 2, fcmd := 0x18C0 }.faulted = true := ⟨rfl, rfl⟩

/-- `HostWriteReplacesTheSlotOrIsRefused`: an accepted write, and one refused in a faulted state; a write above `CAP` is
`test_refused_writes_are_no_moves` and `test_pending`. -/
theorem witness_host_write :
    (plan (.write .b1 [7]) []).host.moves = .write .b1 [7] :: [] ∧
    ((plan (.write .b1 [7]) []).faulted = false ∧ Config.impl.fits [(7 : Byte)].length = true) ∧
    ¬ ({ plan (.write .b1 [7]) [] with faulted := true }.faulted = false ∧ Config.impl.fits [(7 : Byte)].length = true) :=
  ⟨rfl, ⟨rfl, impl_fits_one⟩, by simp⟩

theorem witness_host_read : (plan (.read .b0) [0x41]).host.moves = .read .b0 :: [] := rfl

theorem witness_host_status : (plan .status [0x41]).host.moves = .status :: [] := rfl

theorem witness_reset_transaction : (plan .reset [0x41]).host.moves = .reset :: [] := rfl

theorem witness_idle : State.reset.host.moves = [] ∧ step State.reset = .next State.reset := ⟨rfl, rfl⟩

/-- `PositionCountsTheIssues`: an issue, and a move that is none. -/
theorem witness_position :
    (∃ t, step (plan (.issue 0x0000) []) = .next t ∧ t.host.pc = 1) ∧ ∃ t, step (plan .status []) = .next t ∧ t.host.pc = 0 :=
  ⟨⟨_, rfl, rfl⟩, _, rfl, rfl⟩

/-- The mask lengths of `EncbFollowsItsRule`, `DecbFollowsItsRule`, `EncFollowsItsRule`, `DecFollowsItsRule`, with a block in
slot 0, so that each mode's own effect is reached. -/
theorem witness_block_rules :
    (wEcb block0 []).mask0.length = Config.impl.BS ∧ (wEcb block0 []).mask1.length = Config.impl.BS ∧
    (wEcb block0 []).mode = .ecb ∧ (wEcb block0 []).len .b0 = Config.impl.BS ∧
    (wCbc block0 []).mask0.length = Config.impl.BS ∧ (wCbc block0 []).mask1.length = Config.impl.BS ∧
    (wCbc block0 []).mode = .cbc ∧ (wCbc block0 []).len .b0 = Config.impl.BS :=
  ⟨block0_length, block0_length, rfl, block0_length, block0_length, block0_length, rfl, block0_length⟩

/-- `BufferCommandsComplete`, one state for each of its four clauses: a key of one byte, the block size 1, and the last bytes 0
and 1 of a slot of length 1. -/
theorem witness_buffer_commands :
    1 ≤ (wBufs [5] [7]).len .b1 ∧
    (1 ≤ (1 : BitVec 8).toNat ∧ Config.impl.fits ((wBufs [] []).len .b0 + ((1 : BitVec 8).toNat - (wBufs [] []).len .b0 %
      (1 : BitVec 8).toNat)) = true) ∧
    ((wBufs [0] []).byteAt .b0 ((wBufs [0] []).len .b0 - 1) = some 0 ∧ (0 : Byte).toNat ≤ (wBufs [0] []).len .b0) ∧
    ((wBufs [1] []).byteAt .b0 ((wBufs [1] []).len .b0 - 1) = some 1 ∧ (1 : Byte).toNat ≤ (wBufs [1] []).len .b0) :=
  ⟨by decide, ⟨by decide, impl_fits_one⟩, ⟨rfl, by decide⟩, rfl, by decide⟩

/-- `BlockCommandsComplete`, for each of its five clauses. -/
theorem witness_block_commands :
    (wBufs key0 block0).len .b0 = Config.impl.KL ∧ (wBufs key0 block0).len .b1 = Config.impl.BS ∧
    (wEcb block0 []).mode ≠ .none ∧ (wEcb block0 []).len .b0 = Config.impl.BS ∧
    (wCbc block0 []).mode ≠ .none ∧ (wCbc block0 []).len .b0 = Config.impl.BS :=
  ⟨key0_length, block0_length, by decide, block0_length, by decide, block0_length⟩

/-- A buffer of 255 blocks is at least as long as any byte says. -/
theorem long_buffer (s : State) (h : s.len .b0 = 255 * Config.impl.BS) :
    s.len .b0 % Config.impl.BS = 0 ∧ s.len .b0 ≠ 0 ∧ ∀ b : Byte, b.toNat ≤ s.len .b0 := by
  have := Config.BS_pos Config.impl
  refine ⟨by simp [h], by omega, fun b => ?_⟩
  have := b.isLt
  omega

/-- `WholeBufferCommandsComplete`: an empty buffer to encrypt, and 255 blocks to decrypt. -/
theorem witness_whole_buffer :
    ((wCbc [] []).mode ≠ .none ∧
      Config.impl.fits ((wCbc [] []).len .b0 + (Config.impl.BS - (wCbc [] []).len .b0 % Config.impl.BS)) = true) ∧
    ∃ s : State, s.mode ≠ .none ∧ s.mask0.length = Config.impl.BS ∧ s.mask1.length = Config.impl.BS ∧
      s.len .b0 % Config.impl.BS = 0 ∧ s.len .b0 ≠ 0 ∧ ((decrypted Config.impl s .b0).getLastD 0).toNat ≤ s.len .b0 := by
  have hl : (wCbc (zeros (255 * Config.impl.BS)) []).len .b0 = 255 * Config.impl.BS := by
    simp [wCbc, State.len, State.buf, Memory.get, zeros, rep]
  obtain ⟨h1, h2, h3⟩ := long_buffer _ hl
  refine ⟨⟨by decide, ?_⟩, _, by decide, block0_length, block0_length, h1, h2, h3 _⟩
  have hz : (wCbc [] []).len .b0 = 0 := rfl
  simpa [hz] using impl_fits_BS

/-- `EveryStepKeepsTheInvariant`: a state with a context and a loaded slot, and its step. -/
theorem witness_invariant :
    ({ wEcb [0] [] with host := ⟨[.issue 0x7000], 0, .nothing⟩ } : State).Inv Config.impl ∧
    ∃ t, step { wEcb [0] [] with host := ⟨[.issue 0x7000], 0, .nothing⟩ } = .next t ∧ t.res = Config.impl.BS := by
  refine ⟨⟨?_, key0_length, block0_length, block0_length, by decide, fun _ => ⟨rfl, rfl⟩, ?_, ?_⟩, _, rfl, rfl⟩
  · intro sl
    cases sl
    · exact impl_fits_one
    all_goals exact Config.fits_of_le_max _ (Nat.zero_le _)
  · intro h
    exact absurd h (by decide)
  · intro h
    exact absurd h (by decide)

/-- `FaultRecordNamesACommandThatRaisesIt`, `FaultsArePrecise`: an illegal word in a state with no fault. -/
theorem witness_fault_record :
    ∃ t, pending Config.impl (plan (.issue 0x7001) []) = .issue 0x7001 :: [] ∧ (plan (.issue 0x7001) []).faulted = false ∧
      ((plan (.issue 0x7001) []).faulted = true →
        mayRaise (plan (.issue 0x7001) []).err (decode (plan (.issue 0x7001) []).fcmd) = true) ∧
      step (plan (.issue 0x7001) []) = .next t ∧ t.faulted = true ∧ (∀ rd, decode 0x7001 ≠ .command (.dec rd)) ∧ t.err ≠ 6 :=
  ⟨_, rfl, rfl, fun h => absurd h (by decide), rfl, rfl, fun rd => by cases rd <;> decide, by decide⟩

/-- `OnlyResetLeavesAFault`: both of its cases. -/
theorem witness_only_reset :
    (∃ t, step { plan .reset [] with faulted := true } = .next t ∧ t.faulted = false) ∧
    ∃ t, step { plan (.issue 0x3004) [] with faulted := true } = .next t ∧ t.faulted = true := ⟨⟨_, rfl, rfl⟩, _, rfl, rfl⟩

/-- `ModeAndKeyChangeOnlyByConstruction`: its three cases. -/
theorem witness_mode_changes :
    (∃ t, step { wEcb [] [] with host := ⟨[.reset], 0, .nothing⟩ } = .next t ∧ t.mode ≠ (wEcb [] []).mode) ∧
    (∃ t, step { wBufs key0 block0 with host := ⟨[.issue 0x5000], 0, .nothing⟩ } = .next t ∧ t.mode ≠ .none) ∧
    ∃ t, step { wBufs key0 block0 with host := ⟨[.issue 0x6040], 0, .nothing⟩ } = .next t ∧ t.mode ≠ .none := by
  refine ⟨⟨_, rfl, by decide⟩, ⟨ecbnewRule Config.impl 0x5000 .b0 (takeIssue [] (wBufs key0 block0)), rfl, ?_⟩,
    ⟨cbcnewRule Config.impl 0x6040 .b0 .b1 (takeIssue [] (wBufs key0 block0)), rfl, ?_⟩⟩
  · rcases ecbnewRule_cases Config.impl 0x5000 .b0 (takeIssue [] (wBufs key0 block0)) with ⟨h, -⟩ | ⟨-, e⟩
    · exact absurd key0_length h
    · rw [e]
      decide
  · rcases cbcnewRule_cases Config.impl 0x6040 .b0 .b1 (takeIssue [] (wBufs key0 block0)) with ⟨h, -⟩ | ⟨-, h, -⟩ | ⟨-, -, e⟩
    · exact absurd key0_length h
    · exact absurd block0_length h
    · rw [e]
      decide

/-- `MaskIndexChangesOnlyByCbcDecryption`: a reset from index 1, and a CBC block decryption. -/
theorem witness_mask_index :
    (∃ t, step { plan .reset [] with maskI := 1 } = .next t ∧ t.maskI ≠ 1) ∧
    ∃ t, step { wCbc block0 [] with host := ⟨[.issue 0x9000], 0, .nothing⟩ } = .next t ∧ t.maskI ≠ 0 := by
  refine ⟨⟨_, rfl, by decide⟩, decbRule Config.impl 0x9000 .b0 (takeIssue [] (wCbc block0 [])), rfl, ?_⟩
  rcases decbRule_cases Config.impl 0x9000 .b0 (takeIssue [] (wCbc block0 [])) with ⟨h, -⟩ | ⟨-, h, -⟩ | ⟨-, -, e⟩
  · exact absurd h (by decide)
  · exact absurd block0_length h
  · rw [e, decBlock_cbc rfl]
    decide

/-- `ResultChangesOnlyByBlksz`: both of its cases. -/
theorem witness_result :
    (∃ t, step { plan .reset [] with res := 4 } = .next t ∧ t.res ≠ 4) ∧
    ∃ t, step { wEcb [] [] with host := ⟨[.issue 0x7000], 0, .nothing⟩ } = .next t ∧ t.res ≠ 0 :=
  ⟨⟨_, rfl, by decide⟩, _, rfl, Nat.succ_ne_zero _⟩

/-- `LengthsChangeOnlyAsStated`: XOR and UNPAD, PAD and ENC, on states where they change the length of slot 0. -/
theorem witness_lengths :
    (∃ t, exec (.xor .b0 .b1 .b1) (wBufs [] [7]) = .next t ∧ t.len .b0 ≠ 0) ∧
    (∃ t, exec (.unpad .b0) (wBufs [1] []) = .next t ∧ t.len .b0 ≠ 1) ∧
    (∃ t, exec (.pad .b0 1) (wBufs [] []) = .next t ∧ t.len .b0 ≠ 0) ∧
    ∃ t, exec (.enc .b0) (wEcb [] []) = .next t ∧ t.len .b0 ≠ 0 := by
  refine ⟨⟨_, rfl, by decide⟩, ⟨_, rfl, by decide⟩, ⟨padRule Config.impl 0x3001 .b0 1 (wBufs [] []), rfl, ?_⟩,
    encRule Config.impl 0xA000 .b0 (wEcb [] []), rfl, ?_⟩
  · rcases padRule_cases Config.impl 0x3001 .b0 1 (wBufs [] []) with ⟨h, -⟩ | ⟨-, h, -⟩ | ⟨-, -, e⟩
    · exact absurd h (by decide)
    · exact absurd (h.symm.trans impl_fits_one) (by decide)
    · rw [e]
      decide
  · have hp := Config.BS_pos Config.impl
    have hl : ((wEcb [] []).setBuf .b0 (padded Config.impl.BS ((wEcb [] []).buf .b0))).len .b0 = Config.impl.BS := by
      rw [State.len_setBuf_same, padded_length]
      change 0 + padLen Config.impl.BS 0 = _
      simp [padLen]
    rcases encRule_cases Config.impl 0xA000 .b0 (wEcb [] []) with ⟨h, -⟩ | ⟨-, h, -⟩ | ⟨-, -, e⟩
    · exact absurd h (by decide)
    · have hf : Config.impl.fits ((wEcb [] []).len .b0 + padLen Config.impl.BS ((wEcb [] []).len .b0)) = true := by
        change Config.impl.fits (0 + padLen Config.impl.BS 0) = true
        simpa [padLen] using impl_fits_BS
      exact absurd (h.symm.trans hf) (by decide)
    · have hz : (wEcb [] []).len .b0 / Config.impl.BS + 1 = 1 := by
        change 0 / _ + 1 = 1
        simp
      rw [e, hz, encChunks_len (by rw [hl]; simp), hl]
      omega

/-- `LengthsChangeOnlyAsStated`, DEC, on the configuration `T` (W14). -/
theorem witness_length_dec : (decRule T 0xB000 .b0 (tEcb [5, 6, 7, 8])).len .b0 ≠ (tEcb [5, 6, 7, 8]).len .b0 := by decide

/-- `NextMaskNeverInfluencesAnything`: two states that differ in the next mask. -/
theorem witness_next_mask :
    AgreeButNextMask (wCbc block0 []) { wCbc block0 [] with mask1 := [1] ++ block0 } ∧
    wCbc block0 [] ≠ { wCbc block0 [] with mask1 := [1] ++ block0 } := by
  refine ⟨⟨rfl, rfl, rfl, rfl, rfl, rfl, rfl, rfl, rfl, rfl⟩, fun h => ?_⟩
  have := congrArg (fun s => s.mask1.length) h
  simp [wCbc, State.reset, State.resetWith, block0, zeros, rep] at this

/-- `CapacityIsRaisedExactlyAboveCap`: one byte below the limit and at it, for both clauses. -/
theorem witness_capacity :
    1 ≤ (4 : BitVec 8).toNat ∧ (tEcb []).mode ≠ .none ∧ (tEcb (zeros 15)).faulted = false ∧ (tEcb (zeros 15)).err = 0 ∧
    (padRule T 0x3004 .b0 4 (tEcb (zeros 15))).err = 0 ∧ (padRule T 0x3004 .b0 4 (tEcb (zeros 16))).err = 4 ∧
    (encRule T 0xA000 .b0 (tEcb (zeros 15))).err = 0 ∧ (encRule T 0xA000 .b0 (tEcb (zeros 16))).err = 4 := by decide

/-- `XoriIsXorOntoItself`, `XoriTwiceRestores`, `DoubledKeyGivesTheSameBytes`: two slots, a key of one byte. -/
theorem witness_xor_laws : Slot.b0 ≠ .b1 ∧ 1 ≤ (wBufs [5] [7]).len .b1 := by decide

theorem witness_unpad_undoes_pad :
    1 ≤ (1 : BitVec 8).toNat ∧ Config.impl.fits ((wBufs [] []).len .b0 + (1 : BitVec 8).toNat) = true :=
  ⟨by decide, impl_fits_one⟩

theorem witness_ecb_equal_blocks :
    Slot.b0 ≠ .b1 ∧ (wEcb block0 block0).mode = .ecb ∧ (wEcb block0 block0).len .b0 = Config.impl.BS ∧
    (wEcb block0 block0).buf .b0 = (wEcb block0 block0).buf .b1 := ⟨by decide, rfl, block0_length, rfl⟩

/-- `EcbShowsEqualChunks`: W3's plaintext, chunks 0 and 1. -/
theorem witness_ecb_equal_chunks :
    (tEcb [0x41, 0x42, 0x43, 0x44, 0x41, 0x42, 0x43, 0x44]).mode = .ecb ∧ T.fits (8 + (T.BS - 8 % T.BS)) = true ∧
    0 ≤ 8 / T.BS ∧ 1 ≤ 8 / T.BS ∧
    chunk T (withPadding T.BS ((tEcb [0x41, 0x42, 0x43, 0x44, 0x41, 0x42, 0x43, 0x44]).buf .b0)) 0 =
      chunk T (withPadding T.BS ((tEcb [0x41, 0x42, 0x43, 0x44, 0x41, 0x42, 0x43, 0x44]).buf .b0)) 1 := by decide

/-- `EncIsPadThenEncbOfEachChunk`, `DecIsDecbOfEachChunkThenUnpad`: an eight-byte buffer in a CBC context satisfies the
invariant and the length conditions of both. -/
theorem witness_by_hand :
    Slot.b0 ≠ .b3 ∧ (tCbc (zeros 8)).Inv T ∧ (tCbc (zeros 8)).faulted = false ∧ (tCbc (zeros 8)).mode ≠ .none ∧
    T.fits ((tCbc (zeros 8)).len .b0 + (T.BS - (tCbc (zeros 8)).len .b0 % T.BS)) = true ∧
    (tCbc (zeros 8)).len .b0 % T.BS = 0 ∧ (tCbc (zeros 8)).len .b0 ≠ 0 := by
  refine ⟨by decide, ⟨?_, by decide, by decide, by decide, by decide, by decide, by decide, by decide⟩, by decide⟩
  intro sl
  cases sl <;> decide

/-- The test primitive has the property `PrimInverse`. -/
theorem witness_prim_inverse : T.PrimInverse := by
  intro k b hk hb
  have hb4 : b.length = 4 := hb
  have hk4 : k.length = 4 := hk
  match b, hb4, k, hk4 with
  | [b0, b1, b2, b3], _, [k0, k1, k2, k3], _ =>
    simp [Config.primDec, Config.primEnc, Config.BS, T, List.range_succ]

/-- `EcbRoundTrip`. -/
theorem witness_ecb_round_trip :
    (tEcb (zeros 8)).mode = .ecb ∧ (tEcb (zeros 8)).key.length = T.KL ∧
    T.fits ((tEcb (zeros 8)).len .b0 + (T.BS - (tEcb (zeros 8)).len .b0 % T.BS)) = true := by decide

/-- `MeaningsAreTheRulesOfTheConfiguration`: the engine's own configuration has its own parameters, and the operands of every
clause are met at `T` (the last two are W3's and W14's). -/
theorem witness_parameters :
    (Config.impl.CAP = Config.impl.CAP ∧ Config.impl.BS = Config.impl.BS ∧ Config.impl.KL = Config.impl.KL) ∧
    (1 ≤ (4 : BitVec 8).toNat ∧ T.fits ((tEcb (zeros 15)).len .b0 + (4 - (tEcb (zeros 15)).len .b0 % 4)) = true) ∧
    (tState (zeros 4) (zeros 4) []).len .b0 = T.KL ∧ (tState (zeros 4) (zeros 4) []).len .b1 = T.BS ∧
    ((tCbc (zeros 4)).mode ≠ .none ∧ (tCbc (zeros 4)).curMask.length = T.BS ∧ (tCbc (zeros 4)).len .b0 = T.BS) ∧
    T.fits ((tCbc (zeros 8)).len .b0 + (T.BS - (tCbc (zeros 8)).len .b0 % T.BS)) = true ∧
    ((tEcb [5, 6, 7, 8]).curMask.length = T.BS ∧ (tEcb [5, 6, 7, 8]).len .b0 % T.BS = 0 ∧
      (tEcb [5, 6, 7, 8]).len .b0 ≠ 0 ∧ ((decrypted T (tEcb [5, 6, 7, 8]) .b0).getLastD 0).toNat ≤ 4) := by
  refine ⟨⟨rfl, rfl, rfl⟩, ?_⟩
  decide

/-- `CbcOneChunkDecryptionOnTheEncryptingContext`: program P4b (its `PadUnderflow` and its decrypted chunk), and an IV with
which the last byte does not exceed the length. -/
theorem witness_one_chunk :
    Slot.b0 ≠ .b1 ∧ Slot.b0 ≠ .b2 ∧ (tState [0x41, 0x42] [1, 2, 3, 4] [0x10, 0x20, 0x30, 0x40]).len .b1 = T.KL ∧
    (tState [0x41, 0x42] [1, 2, 3, 4] [0x10, 0x20, 0x30, 0x40]).len .b2 = T.BS ∧
    (tState [0x41, 0x42] [1, 2, 3, 4] [0x10, 0x20, 0x30, 0x40]).len .b0 < T.BS ∧
    decRule T 0xB000 .b0 (encRule T 0xA000 .b0
        (cbcnewRule T 0x6180 .b1 .b2 (tState [0x41, 0x42] [1, 2, 3, 4] [0x10, 0x20, 0x30, 0x40]))) =
      { tCbc [0x32, 0x56, 0x77, 0x17] with
        mem := ⟨[0x32, 0x56, 0x77, 0x17], [1, 2, 3, 4], [0x10, 0x20, 0x30, 0x40], []⟩, mask0 := [0x63, 0x34, 0x45, 0x55],
        mask1 := [0x63, 0x34, 0x45, 0x55], maskI := 1, faulted := true, err := 6, fcmd := 0xB000 } ∧
    (decRule T 0xB000 .b0 (encRule T 0xA000 .b0
      (cbcnewRule T 0x6180 .b1 .b2 (tState [0x41, 0x42] [1, 2, 3, 4] [0x41, 0x20, 0x30, 0x05])))).faulted = false := by decide

/-- `CbcRoundTripWithReconstruction`, `CbcDecryptionOnTheEncryptingContext`: data of one block and more, key and IV. -/
theorem witness_cbc_round_trip :
    Slot.b0 ≠ .b1 ∧ Slot.b0 ≠ .b2 ∧ (tState (zeros 4) (zeros 4) (zeros 4)).len .b1 = T.KL ∧
    (tState (zeros 4) (zeros 4) (zeros 4)).len .b2 = T.BS ∧ T.BS ≤ (tState (zeros 4) (zeros 4) (zeros 4)).len .b0 ∧
    T.fits ((tState (zeros 4) (zeros 4) (zeros 4)).len .b0 +
      (T.BS - (tState (zeros 4) (zeros 4) (zeros 4)).len .b0 % T.BS)) = true := by decide

end Sys2Proof.Tests
end

section
/-! SUPPORT. The eleven commands as one function of the configuration, and the register a command or a step may change,
said once (10_state.md R14, R15, R17, R20, R21). -/

namespace Sys2Proof.Machine

/-! ## One function for the eleven rules -/

/-- The state that the command `i`, issued as the word `w`, leaves in an engine of configuration `c`; `exec_eq_commandRule`
ties it to `exec`. -/
def commandRule (c : Config) (w : CmdWord) : Instr → State → State
  | .xor rd ra rb => xorRule w rd ra rb
  | .xori rd rb => xoriRule w rd rb
  | .pad rd imm8 => padRule c w rd imm8
  | .unpad rd => unpadRule w rd
  | .ecbnew ra => ecbnewRule c w ra
  | .cbcnew ra rb => cbcnewRule c w ra rb
  | .blksz => blkszRule c w
  | .encb rd => encbRule c w rd
  | .decb rd => decbRule c w rd
  | .enc rd => encRule c w rd
  | .dec rd => decRule c w rd

/-- The meaning of a command is its rule at the engine's own configuration, with the command's own word. -/
theorem exec_eq_commandRule (i : Instr) (s : State) : exec i s = .next (commandRule Config.impl (encode i) i s) := by
  cases i <;> rfl

theorem exec_eq_next_iff {i : Instr} {s t : State} : exec i s = .next t ↔ t = commandRule Config.impl (encode i) i s := by
  rw [exec_eq_commandRule, Host.Outcome.next.injEq, eq_comm]

/-! ## Which registers a command changes -/

/-- Decryption toggles `MASK_I` in CBC only (R97, R98). -/
theorem decBlock_maskI_of_ne_cbc {s : State} (h : s.mode ≠ .cbc) (c : Config) (sl : Slot) (off : Nat) :
    (decBlock c sl off s).maskI = s.maskI := by
  cases hm : s.mode with
  | none => simp [decBlock, hm]
  | ecb => rw [decBlock_ecb hm, memWrite_maskI]
  | cbc => exact absurd hm h

theorem decChunks_maskI_of_ne_cbc {s : State} (h : s.mode ≠ .cbc) (c : Config) (sl : Slot) (n : Nat) :
    (decChunks c sl n s).maskI = s.maskI := by
  induction n with
  | zero => rfl
  | succ n ih =>
    have hm : (decChunks c sl n s).mode ≠ .cbc := by rwa [(decChunks_frame c sl n s).1]
    exact (decBlock_maskI_of_ne_cbc hm c sl _).trans ih

/-- `MODE`, `KEY`, `MASK_I`, `RES` and the host are as before. -/
structure SameControl (s t : State) : Prop where
  mode : t.mode = s.mode
  key : t.key = s.key
  maskI : t.maskI = s.maskI
  res : t.res = s.res
  host : t.host = s.host

theorem SameControl.trans {s t u : State} (h : SameControl s t) (h' : SameControl t u) : SameControl s u :=
  ⟨h'.mode.trans h.mode, h'.key.trans h.key, h'.maskI.trans h.maskI, h'.res.trans h.res, h'.host.trans h.host⟩

theorem raise_sameControl (k : FaultKind) (w : CmdWord) (s : State) : SameControl s (raise k w s) :=
  ⟨rfl, rfl, rfl, rfl, rfl⟩

theorem State.setBuf_sameControl (s : State) (sl : Slot) (v : Bytes) : SameControl s (s.setBuf sl v) :=
  ⟨rfl, rfl, rfl, rfl, rfl⟩

theorem cutPadding_sameControl (w : CmdWord) (rd : Slot) (s : State) : SameControl s (cutPadding w rd s) := by
  rcases cutPadding_cases w rd s with ⟨-, e⟩ | ⟨n, -, -, e⟩ | ⟨n, -, -, e⟩ <;> rw [e]
  · exact raise_sameControl ..
  · exact raise_sameControl ..
  · exact State.setBuf_sameControl ..

theorem encBlock_sameControl (c : Config) (sl : Slot) (off : Nat) (s : State) : SameControl s (encBlock c sl off s) := by
  obtain ⟨hmode, hkey, hmaskI, -, -, -, -, hres, hhost, -⟩ := encBlock_frame c sl off s
  exact ⟨hmode, hkey, hmaskI, hres, hhost⟩

theorem encChunks_sameControl (c : Config) (sl : Slot) (n : Nat) (s : State) : SameControl s (encChunks c sl n s) := by
  obtain ⟨hmode, hkey, hmaskI, -, -, -, -, hres, hhost, -⟩ := encChunks_frame c sl n s
  exact ⟨hmode, hkey, hmaskI, hres, hhost⟩

/-- What the command `i` does to `MODE`, `KEY`, `MASK_I` and `RES`: nothing, or one of the four changes of R14, R15, R17 and
R20. No command touches the host. -/
inductive ControlChange (c : Config) (i : Instr) (s t : State) : Prop
  /-- A fault, or a command that writes slots and masks only. -/
  | kept (same : SameControl s t)
  | ecbContext (ra : Slot) (command : i = .ecbnew ra) (mode : t.mode = .ecb) (key : t.key = s.buf ra)
      (maskI : t.maskI = 0) (res : t.res = s.res) (host : t.host = s.host)
  | cbcContext (ra rb : Slot) (command : i = .cbcnew ra rb) (mode : t.mode = .cbc) (key : t.key = s.buf ra)
      (maskI : t.maskI = 0) (res : t.res = s.res) (host : t.host = s.host)
  | blockSize (command : i = .blksz) (mode : t.mode = s.mode) (key : t.key = s.key) (maskI : t.maskI = s.maskI)
      (res : t.res = c.BS) (host : t.host = s.host)
  | cbcDecryption (rd : Slot) (command : i = .decb rd ∨ i = .dec rd) (cbc : s.mode = .cbc) (mode : t.mode = s.mode)
      (key : t.key = s.key) (res : t.res = s.res) (host : t.host = s.host)

theorem ControlChange.host_eq {c : Config} {i : Instr} {s t : State} (h : ControlChange c i s t) : t.host = s.host := by
  cases h with
  | kept same => exact same.host
  | ecbContext _ _ _ _ _ _ host => exact host
  | cbcContext _ _ _ _ _ _ _ host => exact host
  | blockSize _ _ _ _ _ host => exact host
  | cbcDecryption _ _ _ _ _ _ host => exact host

theorem ControlChange.then_kept {c : Config} {i : Instr} {s t u : State} (h : ControlChange c i s t) (hu : SameControl t u) :
    ControlChange c i s u := by
  obtain ⟨umode, ukey, umaskI, ures, uhost⟩ := hu
  cases h with
  | kept same => exact .kept (same.trans ⟨umode, ukey, umaskI, ures, uhost⟩)
  | ecbContext ra command mode key maskI res host =>
    exact .ecbContext ra command (umode.trans mode) (ukey.trans key) (umaskI.trans maskI) (ures.trans res) (uhost.trans host)
  | cbcContext ra rb command mode key maskI res host =>
    exact .cbcContext ra rb command (umode.trans mode) (ukey.trans key) (umaskI.trans maskI) (ures.trans res)
      (uhost.trans host)
  | blockSize command mode key maskI res host =>
    exact .blockSize command (umode.trans mode) (ukey.trans key) (umaskI.trans maskI) (ures.trans res) (uhost.trans host)
  | cbcDecryption rd command cbc mode key res host =>
    exact .cbcDecryption rd command cbc (umode.trans mode) (ukey.trans key) (ures.trans res) (uhost.trans host)

/-- The decryption of chunks, by `DECB` or `DEC`, changes `MASK_I` in CBC and nothing else of the control registers. -/
theorem decChunks_controlChange {i : Instr} {rd : Slot} (hi : i = .decb rd ∨ i = .dec rd) (c : Config) (n : Nat) (s : State) :
    ControlChange c i s (decChunks c rd n s) := by
  obtain ⟨hmode, hkey, -, -, -, hres, hhost, -⟩ := decChunks_frame c rd n s
  by_cases hc : s.mode = .cbc
  · exact .cbcDecryption rd hi hc hmode hkey hres hhost
  · exact .kept ⟨hmode, hkey, decChunks_maskI_of_ne_cbc hc c rd n, hres, hhost⟩

/-- The one block of `DECB` is chunk 0. -/
theorem decBlock_zero_eq_decChunks (c : Config) (sl : Slot) (s : State) : decBlock c sl 0 s = decChunks c sl 1 s := by
  simp [decChunks, chunkOffset]

theorem commandRule_controlChange (c : Config) (w : CmdWord) (i : Instr) (s : State) :
    ControlChange c i s (commandRule c w i s) := by
  have faults (k : FaultKind) : ControlChange c i s (raise k w s) := .kept (raise_sameControl k w s)
  have writes (sl : Slot) (v : Bytes) : ControlChange c i s (s.setBuf sl v) := .kept (s.setBuf_sameControl sl v)
  cases i with simp only [commandRule]
  | xor rd ra rb =>
    rcases xorRule_cases w rd ra rb s with ⟨-, e⟩ | ⟨-, e⟩ <;> rw [e]
    exacts [faults _, writes _ _]
  | xori rd rb =>
    rcases xoriRule_cases w rd rb s with ⟨-, e⟩ | ⟨-, e⟩ <;> rw [e]
    exacts [faults _, writes _ _]
  | pad rd imm8 =>
    rcases padRule_cases c w rd imm8 s with ⟨-, e⟩ | ⟨-, -, e⟩ | ⟨-, -, e⟩ <;> rw [e]
    exacts [faults _, faults _, writes _ _]
  | unpad rd => exact .kept (cutPadding_sameControl w rd s)
  | ecbnew ra =>
    rcases ecbnewRule_cases c w ra s with ⟨-, e⟩ | ⟨-, e⟩ <;> rw [e]
    exacts [faults _, .ecbContext ra rfl rfl rfl rfl rfl rfl]
  | cbcnew ra rb =>
    rcases cbcnewRule_cases c w ra rb s with ⟨-, e⟩ | ⟨-, -, e⟩ | ⟨-, -, e⟩ <;> rw [e]
    exacts [faults _, faults _, .cbcContext ra rb rfl rfl rfl rfl rfl rfl]
  | blksz =>
    rcases blkszRule_cases c w s with ⟨-, e⟩ | ⟨-, e⟩ <;> rw [e]
    exacts [faults _, .blockSize rfl rfl rfl rfl rfl rfl]
  | encb rd =>
    rcases encbRule_cases c w rd s with ⟨-, e⟩ | ⟨-, -, e⟩ | ⟨-, -, e⟩ <;> rw [e]
    exacts [faults _, faults _, .kept (encBlock_sameControl c rd 0 s)]
  | decb rd =>
    rcases decbRule_cases c w rd s with ⟨-, e⟩ | ⟨-, -, e⟩ | ⟨-, -, e⟩ <;> rw [e]
    · exact faults _
    · exact faults _
    · rw [decBlock_zero_eq_decChunks]
      exact decChunks_controlChange (.inl rfl) c 1 s
  | enc rd =>
    rcases encRule_cases c w rd s with ⟨-, e⟩ | ⟨-, -, e⟩ | ⟨-, -, e⟩ <;> rw [e]
    exacts [faults _, faults _, (writes rd _).then_kept (encChunks_sameControl c rd _ _)]
  | dec rd =>
    rcases decRule_cases c w rd s with ⟨-, e⟩ | ⟨-, -, e⟩ | ⟨-, -, -, e⟩ | ⟨-, -, -, e⟩ <;> rw [e]
    exacts [faults _, faults _, faults _,
      (decChunks_controlChange (.inr rfl) c _ s).then_kept (cutPadding_sameControl w rd _)]

theorem commandRule_host (c : Config) (w : CmdWord) (i : Instr) (s : State) : (commandRule c w i s).host = s.host :=
  (commandRule_controlChange c w i s).host_eq

/-! ## Which registers a step changes -/

/-- A step that changes `MODE`, `KEY`, `MASK_I` or `RES` is a reset or the issue of a command. -/
theorem step_control_cases {s t : State} (h : step s = .next t) :
    (∃ rest, pending Config.impl s = .reset :: rest ∧ t = hostReset Config.impl (takeMove rest s)) ∨
    (∃ w rest i, pending Config.impl s = .issue w :: rest ∧ decode w = .command i ∧
      ControlChange Config.impl i (takeIssue rest s) t) ∨
    (t.mode = s.mode ∧ t.key = s.key ∧ t.maskI = s.maskI ∧ t.res = s.res) := by
  rcases step_cases h with ⟨-, rfl⟩ | ⟨rest, ⟨sl, v, -, rfl⟩ | ⟨sl, -, rfl⟩ | ⟨-, rfl⟩ | ⟨hp, rfl⟩ | ⟨w, hp, hw⟩⟩
  · exact .inr (.inr ⟨rfl, rfl, rfl, rfl⟩)
  · exact .inr (.inr ⟨rfl, rfl, rfl, rfl⟩)
  · exact .inr (.inr ⟨rfl, rfl, rfl, rfl⟩)
  · exact .inr (.inr ⟨rfl, rfl, rfl, rfl⟩)
  · exact .inl ⟨rest, hp, rfl⟩
  · rcases issueWord_cases hw with ⟨-, ht⟩ | ⟨-, -, ht⟩ | ⟨-, i, hd, ht⟩
    · obtain rfl := Host.Outcome.next.inj ht
      exact .inr (.inr ⟨rfl, rfl, rfl, rfl⟩)
    · obtain rfl := Host.Outcome.next.inj ht
      exact .inr (.inr ⟨rfl, rfl, rfl, rfl⟩)
    · obtain rfl := exec_eq_next_iff.1 ht.symm
      exact .inr (.inl ⟨w, rest, i, hp, hd, commandRule_controlChange _ _ _ _⟩)

/-- An issue leaves the host as it found it, whatever the word (R21). -/
theorem issueWord_host {w : CmdWord} {s t : State} (h : issueWord w s = .next t) : t.host = s.host := by
  rcases issueWord_cases h with ⟨-, ht⟩ | ⟨-, -, ht⟩ | ⟨-, i, -, ht⟩
  · rw [Host.Outcome.next.inj ht]
  · rw [Host.Outcome.next.inj ht, raise_host]
  · rw [exec_eq_next_iff.1 ht.symm, commandRule_host]

end Sys2Proof.Machine
end

section
/-! The reset state, the host's position, and the registers that a step may change (10_state.md R14, R15, R17, R20, R21, R24). -/

namespace Sys2Proof.Proofs

open Sys2Proof.Machine

/-- Settles O17: the fields of `State.resetWith` are the lines of the table of R24. -/
theorem resetStateHasTheStatedValues : Obligations.ResetStateHasTheStatedValues :=
  ⟨State.resetWith_buf _ _, State.resetWith_mode _ _, State.resetWith_key _ _, State.resetWith_mask0 _ _,
    State.resetWith_mask1 _ _, State.resetWith_maskI _ _, State.resetWith_faulted _ _, State.resetWith_err _ _,
    State.resetWith_fcmd _ _, State.resetWith_res _ _⟩

/-- Settles O20: taking the issue counts it, and no command touches the host. -/
theorem positionCountsTheIssues : Obligations.PositionCountsTheIssues := by
  intro s t h
  rcases step_cases h with ⟨hp, rfl⟩ | ⟨rest, ⟨sl, v, hp, rfl⟩ | ⟨sl, hp, rfl⟩ | ⟨hp, rfl⟩ | ⟨hp, rfl⟩ | ⟨w, hp, hw⟩⟩ <;>
    rw [hp]
  exacts [rfl, rfl, rfl, rfl, rfl, congrArg HostSide.pc (issueWord_host hw)]

/-- Settles O41: of the changes a step can make to the control registers, only reset and the two constructions touch `MODE`
or `KEY`. -/
theorem modeAndKeyChangeOnlyByConstruction : Obligations.ModeAndKeyChangeOnlyByConstruction := by
  intro s t h hne
  rcases step_control_cases h with ⟨rest, hp, rfl⟩ | ⟨w, rest, i, hp, hd, hc⟩ | ⟨hmode, hkey, -, -⟩
  · exact .inl ⟨rest, hp, rfl⟩
  · cases hc with
    | ecbContext ra command mode key => exact .inr (.inl ⟨w, ra, rest, hp, command ▸ hd, mode, key⟩)
    | cbcContext ra rb command mode key => exact .inr (.inr ⟨w, ra, rb, rest, hp, command ▸ hd, mode, key⟩)
    | kept same => exact absurd hne (by simp [same.mode, same.key])
    | blockSize _ mode key => exact absurd hne (by simp [mode, key])
    | cbcDecryption _ _ _ mode key => exact absurd hne (by simp [mode, key])
  · exact absurd hne (by simp [hmode, hkey])

/-- Settles O42: of the changes a step can make to the control registers, reset and the two constructions clear `MASK_I`, and
only CBC decryption moves it otherwise. -/
theorem maskIndexChangesOnlyByCbcDecryption : Obligations.MaskIndexChangesOnlyByCbcDecryption := by
  intro s t h hne
  rcases step_control_cases h with ⟨rest, hp, rfl⟩ | ⟨w, rest, i, hp, hd, hc⟩ | ⟨-, -, hmaskI, -⟩
  · exact .inl ⟨rfl, .inl ⟨rest, hp⟩⟩
  · cases hc with
    | ecbContext ra command _ _ maskI => exact .inl ⟨maskI, .inr (.inl ⟨w, rest, ra, hp, command ▸ hd⟩)⟩
    | cbcContext ra rb command _ _ maskI => exact .inl ⟨maskI, .inr (.inr ⟨w, rest, ra, rb, hp, command ▸ hd⟩)⟩
    | cbcDecryption rd command cbc =>
      have hword : decode w = .command (.decb rd) ∨ decode w = .command (.dec rd) :=
        command.imp (hd.trans <| congrArg _ ·) (hd.trans <| congrArg _ ·)
      exact .inr ⟨cbc, w, rest, rd, hp, hword⟩
    | kept same => exact absurd same.maskI hne
    | blockSize _ _ _ maskI => exact absurd maskI hne
  · exact absurd hmaskI hne

/-- Settles O43: of the changes a step can make to the control registers, only reset and `BLKSZ` touch `RES`. -/
theorem resultChangesOnlyByBlksz : Obligations.ResultChangesOnlyByBlksz := by
  intro s t h hne
  rcases step_control_cases h with ⟨rest, hp, rfl⟩ | ⟨w, rest, i, hp, hd, hc⟩ | ⟨-, -, -, hres⟩
  · exact .inl ⟨rfl, rest, hp⟩
  · cases hc with
    | blockSize command _ _ _ res => exact .inr ⟨res, w, rest, hp, command ▸ hd⟩
    | kept same => exact absurd same.res hne
    | ecbContext _ _ _ _ _ res => exact absurd res hne
    | cbcContext _ _ _ _ _ _ res => exact absurd res hne
    | cbcDecryption _ _ _ _ _ res => exact absurd res hne
  · exact absurd hres hne

end Sys2Proof.Proofs
end

section
/-! SUPPORT. Which slot's length a rule changes, and which way (10_state.md R12). -/

namespace Sys2Proof.Machine

theorem State.eq_of_len_setBuf_ne {s : State} {rd sl : Slot} {v : Bytes} (h : (s.setBuf rd v).len sl ≠ s.len sl) :
    rd = sl := by
  by_contra hne
  exact h (s.len_setBuf_other v (Ne.symm hne))

theorem xorRule_len_change {w : CmdWord} {rd ra rb sl : Slot} {s : State}
    (h : (xorRule w rd ra rb s).len sl ≠ s.len sl) : rd = sl ∧ (xorRule w rd ra rb s).len sl = s.len ra := by
  rcases xorRule_cases w rd ra rb s with ⟨-, e⟩ | ⟨-, e⟩ <;> rw [e] at h ⊢
  · exact absurd rfl h
  · obtain rfl := State.eq_of_len_setBuf_ne h
    exact ⟨rfl, (State.len_setBuf_same ..).trans (xorBytes_length ..)⟩

theorem xoriRule_len (w : CmdWord) (rd rb sl : Slot) (s : State) : (xoriRule w rd rb s).len sl = s.len sl := by
  rcases xoriRule_cases w rd rb s with ⟨-, e⟩ | ⟨-, e⟩ <;> rw [e]
  · rfl
  · by_contra h
    obtain rfl := State.eq_of_len_setBuf_ne h
    exact h ((State.len_setBuf_same ..).trans (xorBytes_length ..))

/-- Where padding has been appended the slot has grown. -/
theorem len_setBuf_padded_change {bs : Nat} {rd sl : Slot} {s : State} (hbs : 1 ≤ bs)
    (h : (s.setBuf rd (padded bs (s.buf rd))).len sl ≠ s.len sl) :
    rd = sl ∧ s.len sl < (s.setBuf rd (padded bs (s.buf rd))).len sl := by
  obtain rfl := State.eq_of_len_setBuf_ne h
  have hgrow := (padLen_bounds hbs (s.buf rd).length).1
  refine ⟨rfl, ?_⟩
  rw [State.len_setBuf_same, padded_length, State.len]
  omega

theorem padRule_len_change {c : Config} {w : CmdWord} {rd sl : Slot} {imm8 : BitVec 8} {s : State}
    (h : (padRule c w rd imm8 s).len sl ≠ s.len sl) : rd = sl ∧ s.len sl < (padRule c w rd imm8 s).len sl := by
  rcases padRule_cases c w rd imm8 s with ⟨-, e⟩ | ⟨-, -, e⟩ | ⟨hz, -, e⟩ <;> rw [e] at h ⊢
  · exact absurd rfl h
  · exact absurd rfl h
  · exact len_setBuf_padded_change (Nat.one_le_iff_ne_zero.2 hz) h

theorem cutPadding_len_change {w : CmdWord} {rd sl : Slot} {s : State} (h : (cutPadding w rd s).len sl ≠ s.len sl) :
    rd = sl ∧ (cutPadding w rd s).len sl < s.len sl := by
  rcases cutPadding_cases w rd s with ⟨-, e⟩ | ⟨n, -, -, e⟩ | ⟨n, -, -, e⟩ <;> rw [e] at h ⊢
  · exact absurd rfl h
  · exact absurd rfl h
  · obtain rfl := State.eq_of_len_setBuf_ne h
    have hle : (s.setBuf rd ((s.buf rd).take (s.len rd - n.toNat))).len rd ≤ s.len rd := by
      rw [State.len_setBuf_same]
      exact List.length_take_le' ..
    exact ⟨rfl, lt_of_le_of_ne hle h⟩

theorem ecbnewRule_len (c : Config) (w : CmdWord) (ra sl : Slot) (s : State) : (ecbnewRule c w ra s).len sl = s.len sl := by
  rcases ecbnewRule_cases c w ra s with ⟨-, e⟩ | ⟨-, e⟩ <;> rw [e] <;> rfl

theorem cbcnewRule_len (c : Config) (w : CmdWord) (ra rb sl : Slot) (s : State) :
    (cbcnewRule c w ra rb s).len sl = s.len sl := by
  rcases cbcnewRule_cases c w ra rb s with ⟨-, e⟩ | ⟨-, -, e⟩ | ⟨-, -, e⟩ <;> rw [e] <;> rfl

theorem blkszRule_len (c : Config) (w : CmdWord) (sl : Slot) (s : State) : (blkszRule c w s).len sl = s.len sl := by
  rcases blkszRule_cases c w s with ⟨-, e⟩ | ⟨-, e⟩ <;> rw [e] <;> rfl

theorem encbRule_len (c : Config) (w : CmdWord) (rd sl : Slot) (s : State) : (encbRule c w rd s).len sl = s.len sl := by
  rcases encbRule_cases c w rd s with ⟨-, e⟩ | ⟨-, -, e⟩ | ⟨-, hl, e⟩ <;> rw [e]
  · rfl
  · rfl
  · exact encBlock_len (by omega) sl

theorem decbRule_len (c : Config) (w : CmdWord) (rd sl : Slot) (s : State) : (decbRule c w rd s).len sl = s.len sl := by
  rcases decbRule_cases c w rd s with ⟨-, e⟩ | ⟨-, -, e⟩ | ⟨-, hl, e⟩ <;> rw [e]
  · rfl
  · rfl
  · exact decBlock_len (by omega) sl

/-- The padded buffer of `ENC` is exactly its `LEN div BS + 1` chunks (R82). -/
theorem len_setBuf_padded (c : Config) (rd : Slot) (s : State) :
    (s.setBuf rd (padded c.BS (s.buf rd))).len rd = (s.len rd / c.BS + 1) * c.BS := by
  rw [State.len_setBuf_same, padded_length]
  exact add_padLen c.BS_pos _

theorem encRule_len_change {c : Config} {w : CmdWord} {rd sl : Slot} {s : State}
    (h : (encRule c w rd s).len sl ≠ s.len sl) : rd = sl ∧ s.len sl < (encRule c w rd s).len sl := by
  rcases encRule_cases c w rd s with ⟨-, e⟩ | ⟨-, -, e⟩ | ⟨-, -, e⟩ <;> rw [e] at h ⊢
  · exact absurd rfl h
  · exact absurd rfl h
  · rw [encChunks_len (len_setBuf_padded c rd s).ge] at h ⊢
    exact len_setBuf_padded_change c.BS_pos h

theorem decRule_len_change {c : Config} {w : CmdWord} {rd sl : Slot} {s : State}
    (h : (decRule c w rd s).len sl ≠ s.len sl) : rd = sl ∧ (decRule c w rd s).len sl < s.len sl := by
  rcases decRule_cases c w rd s with ⟨-, e⟩ | ⟨-, -, e⟩ | ⟨-, -, -, e⟩ | ⟨-, -, -, e⟩ <;> rw [e] at h ⊢
  · exact absurd rfl h
  · exact absurd rfl h
  · exact absurd rfl h
  · have hchunks := decChunks_len (c := c) (Nat.div_mul_le_self (s.len rd) c.BS) sl
    rw [← hchunks] at h ⊢
    exact cutPadding_len_change h

end Sys2Proof.Machine

namespace Sys2Proof.Proofs

open Sys2Proof.Machine

/-- Settles O44, by the length each rule leaves. -/
theorem lengthsChangeOnlyAsStated : Obligations.LengthsChangeOnlyAsStated := by
  intro i s t sl h hne
  obtain rfl := exec_eq_next_iff.1 h
  cases i with
  | xor rd ra rb => exact xorRule_len_change hne
  | xori rd rb => exact hne (xoriRule_len ..)
  | pad rd imm8 => exact padRule_len_change hne
  | unpad rd => exact cutPadding_len_change hne
  | ecbnew ra => exact hne (ecbnewRule_len ..)
  | cbcnew ra rb => exact hne (cbcnewRule_len ..)
  | blksz => exact hne (blkszRule_len ..)
  | encb rd => exact hne (encbRule_len ..)
  | decb rd => exact hne (decbRule_len ..)
  | enc rd => exact encRule_len_change hne
  | dec rd => exact decRule_len_change hne

end Sys2Proof.Proofs
end

section
/-! SUPPORT. The invariant of reachable states: each operation on the state keeps it, then each rule, then each transaction
(10_state.md R12, R18, R19, R20; 60_exceptions.md R120). -/

namespace Sys2Proof.Machine

/-! ## The operations -/

/-- "Codes 12 to 15 are never stored", and no fault has code 0 (R120). -/
theorem faultCode_bounds (k : FaultKind) : 1 ≤ (faultCode k).toNat ∧ (faultCode k).toNat ≤ 11 := by
  cases k <;> decide

@[simp] theorem zeros_length (n : Nat) : (zeros n).length = n := List.length_replicate

variable {c : Config} {s : State}

/-- The invariant does not look at the host. -/
theorem withHost_inv (hi : s.Inv c) (h : HostSide) : ({ s with host := h } : State).Inv c :=
  ⟨hi.slots, hi.key, hi.mask0, hi.mask1, hi.res, hi.noFault, hi.code, hi.unconstructed⟩

theorem resetWith_inv (c : Config) (h : HostSide) : (State.resetWith c h).Inv c where
  slots sl := by
    rw [State.resetWith_len]
    exact c.fits_of_le_max (Nat.zero_le _)
  key := zeros_length _
  mask0 := zeros_length _
  mask1 := zeros_length _
  res := Nat.zero_le _
  noFault _ := ⟨rfl, rfl⟩
  code hf := nomatch hf
  unconstructed _ := ⟨rfl, rfl, rfl, rfl, rfl⟩

theorem raise_inv (hi : s.Inv c) (k : FaultKind) (w : CmdWord) : (raise k w s).Inv c where
  slots := hi.slots
  key := hi.key
  mask0 := hi.mask0
  mask1 := hi.mask1
  res := hi.res
  noFault hf := nomatch hf
  code _ := faultCode_bounds k
  unconstructed := hi.unconstructed

theorem setBuf_inv (hi : s.Inv c) (sl : Slot) {v : Bytes} (hv : c.fits v.length = true) : (s.setBuf sl v).Inv c where
  slots sl' := by
    by_cases hs : sl' = sl
    · rwa [hs, State.len_setBuf_same]
    · rw [State.len_setBuf_other s v hs]
      exact hi.slots sl'
  key := hi.key
  mask0 := hi.mask0
  mask1 := hi.mask1
  res := hi.res
  noFault := hi.noFault
  code := hi.code
  unconstructed := hi.unconstructed

/-- A write inside the slot changes no length. -/
theorem memWrite_inv (hi : s.Inv c) {sl : Slot} {off : Nat} {v : Bytes} (h : off + v.length ≤ s.len sl) :
    (memWrite s sl off v).Inv c := by
  have hlen : ((s.buf sl).take off ++ v ++ (s.buf sl).drop (off + v.length)).length = s.len sl := by
    rw [← memWrite_buf_same]
    exact memWrite_len h sl
  exact setBuf_inv hi sl (hlen ▸ hi.slots sl)

/-- A mask of block size may be stored once a context has been constructed. -/
theorem setMask_inv (hi : s.Inv c) (hm : s.mode ≠ .none) (i : BitVec 1) {v : Bytes} (hv : v.length = c.BS) :
    (s.setMask i v).Inv c where
  slots sl := by
    rw [State.setMask_len]
    exact hi.slots sl
  key := by simpa using hi.key
  mask0 := by
    rw [State.setMask_mask0]
    split
    exacts [hv, hi.mask0]
  mask1 := by
    rw [State.setMask_mask1]
    split
    exacts [hi.mask1, hv]
  res := by simpa using hi.res
  noFault := by simpa using hi.noFault
  code := by simpa using hi.code
  unconstructed h := absurd (by simpa using h) hm

theorem withMaskI_inv (hi : s.Inv c) (hm : s.mode ≠ .none) (i : BitVec 1) : ({ s with maskI := i } : State).Inv c :=
  ⟨hi.slots, hi.key, hi.mask0, hi.mask1, hi.res, hi.noFault, hi.code, fun h => absurd h hm⟩

/-- A context constructed from a key and an IV of the right lengths. -/
theorem withContext_inv (hi : s.Inv c) {m : Mode} {k m0 m1 : Bytes} {i : BitVec 1} (hm : m ≠ .none)
    (hk : k.length = c.KL) (h0 : m0.length = c.BS) (h1 : m1.length = c.BS) :
    ({ s with mode := m, key := k, mask0 := m0, mask1 := m1, maskI := i } : State).Inv c :=
  ⟨hi.slots, hk, h0, h1, hi.res, hi.noFault, hi.code, fun h => absurd h hm⟩

theorem cutPadding_inv (hi : s.Inv c) (w : CmdWord) (rd : Slot) : (cutPadding w rd s).Inv c := by
  rcases cutPadding_cases w rd s with ⟨-, e⟩ | ⟨n, -, -, e⟩ | ⟨n, -, -, e⟩ <;> rw [e]
  · exact raise_inv hi _ w
  · exact raise_inv hi _ w
  · exact setBuf_inv hi rd (Config.fits_mono (List.length_take_le' ..) (hi.slots rd))

theorem encBlock_inv (hi : s.Inv c) {sl : Slot} {off : Nat} (h : off + c.BS ≤ s.len sl) : (encBlock c sl off s).Inv c := by
  cases hm : s.mode with
  | none => simpa [encBlock, hm] using hi
  | ecb =>
    rw [encBlock_ecb hm]
    exact memWrite_inv hi (by simpa using h)
  | cbc =>
    rw [encBlock_cbc hm]
    exact setMask_inv (memWrite_inv hi (by simpa using h)) (by simp [hm]) _ (Config.primEnc_length ..)

theorem decBlock_inv (hi : s.Inv c) {sl : Slot} {off : Nat} (h : off + c.BS ≤ s.len sl) : (decBlock c sl off s).Inv c := by
  cases hm : s.mode with
  | none => simpa [decBlock, hm] using hi
  | ecb =>
    rw [decBlock_ecb hm]
    exact memWrite_inv hi (by simpa using h)
  | cbc =>
    rw [decBlock_cbc hm]
    have saved := setMask_inv hi (by simp [hm]) (otherMask s.maskI) (memRead_length h)
    exact withMaskI_inv (memWrite_inv saved (by simpa using h)) (by simp [hm]) _

theorem encChunks_inv (hi : s.Inv c) {sl : Slot} {n : Nat} (h : n * c.BS ≤ s.len sl) : (encChunks c sl n s).Inv c := by
  induction n with
  | zero => exact hi
  | succ n ih =>
    rw [Nat.succ_mul] at h
    have hn : n * c.BS ≤ s.len sl := by omega
    exact encBlock_inv (ih hn) (by rwa [encChunks_len hn])

theorem decChunks_inv (hi : s.Inv c) {sl : Slot} {n : Nat} (h : n * c.BS ≤ s.len sl) : (decChunks c sl n s).Inv c := by
  induction n with
  | zero => exact hi
  | succ n ih =>
    rw [Nat.succ_mul] at h
    have hn : n * c.BS ≤ s.len sl := by omega
    exact decBlock_inv (ih hn) (by rwa [decChunks_len hn])

/-! ## The rules -/

theorem commandRule_inv (hi : s.Inv c) (w : CmdWord) (i : Instr) : (commandRule c w i s).Inv c := by
  have faults (k : FaultKind) : (raise k w s).Inv c := raise_inv hi k w
  cases i with simp only [commandRule]
  | xor rd ra rb =>
    rcases xorRule_cases w rd ra rb s with ⟨-, e⟩ | ⟨-, e⟩ <;> rw [e]
    · exact faults _
    · exact setBuf_inv hi rd ((xorBytes_length ..).symm ▸ hi.slots ra)
  | xori rd rb =>
    rcases xoriRule_cases w rd rb s with ⟨-, e⟩ | ⟨-, e⟩ <;> rw [e]
    · exact faults _
    · exact setBuf_inv hi rd ((xorBytes_length ..).symm ▸ hi.slots rd)
  | pad rd imm8 =>
    rcases padRule_cases c w rd imm8 s with ⟨-, e⟩ | ⟨-, -, e⟩ | ⟨-, hfits, e⟩ <;> rw [e]
    · exact faults _
    · exact faults _
    · exact setBuf_inv hi rd ((padded_length ..).symm ▸ hfits)
  | unpad rd => exact cutPadding_inv hi w rd
  | ecbnew ra =>
    rcases ecbnewRule_cases c w ra s with ⟨-, e⟩ | ⟨hk, e⟩ <;> rw [e]
    · exact faults _
    · exact withContext_inv hi nofun hk (zeros_length _) (zeros_length _)
  | cbcnew ra rb =>
    rcases cbcnewRule_cases c w ra rb s with ⟨-, e⟩ | ⟨-, -, e⟩ | ⟨hk, hv, e⟩ <;> rw [e]
    · exact faults _
    · exact faults _
    · exact withContext_inv hi nofun hk hv (zeros_length _)
  | blksz =>
    rcases blkszRule_cases c w s with ⟨-, e⟩ | ⟨hm, e⟩ <;> rw [e]
    · exact faults _
    · exact ⟨hi.slots, hi.key, hi.mask0, hi.mask1, c.BS_le, hi.noFault, hi.code, fun h => absurd h hm⟩
  | encb rd =>
    rcases encbRule_cases c w rd s with ⟨-, e⟩ | ⟨-, -, e⟩ | ⟨-, hl, e⟩ <;> rw [e]
    · exact faults _
    · exact faults _
    · exact encBlock_inv hi (by omega)
  | decb rd =>
    rcases decbRule_cases c w rd s with ⟨-, e⟩ | ⟨-, -, e⟩ | ⟨-, hl, e⟩ <;> rw [e]
    · exact faults _
    · exact faults _
    · exact decBlock_inv hi (by omega)
  | enc rd =>
    rcases encRule_cases c w rd s with ⟨-, e⟩ | ⟨-, -, e⟩ | ⟨-, hfits, e⟩ <;> rw [e]
    · exact faults _
    · exact faults _
    · have padded_inv := setBuf_inv hi rd (v := padded c.BS (s.buf rd)) ((padded_length ..).symm ▸ hfits)
      exact encChunks_inv padded_inv (len_setBuf_padded c rd s).ge
  | dec rd =>
    rcases decRule_cases c w rd s with ⟨-, e⟩ | ⟨-, -, e⟩ | ⟨-, -, -, e⟩ | ⟨-, -, -, e⟩ <;> rw [e]
    · exact faults _
    · exact faults _
    · exact faults _
    · exact cutPadding_inv (decChunks_inv hi (Nat.div_mul_le_self ..)) w rd

/-! ## The transactions -/

theorem issueWord_inv {w : CmdWord} {t : State} (hi : s.Inv Config.impl) (h : issueWord w s = .next t) :
    t.Inv Config.impl := by
  rcases issueWord_cases h with ⟨-, ht⟩ | ⟨-, -, ht⟩ | ⟨-, i, -, ht⟩
  · rwa [Host.Outcome.next.inj ht]
  · rw [Host.Outcome.next.inj ht]
    exact raise_inv hi _ w
  · rw [exec_eq_next_iff.1 ht.symm]
    exact commandRule_inv hi _ i

end Sys2Proof.Machine

namespace Sys2Proof.Proofs

open Sys2Proof.Machine

/-- Settles O37: a step is one transaction, and each of the five keeps the invariant, as idling does. -/
theorem everyStepKeepsTheInvariant : Obligations.EveryStepKeepsTheInvariant := by
  intro s t hi h
  rcases step_cases h with ⟨-, rfl⟩ | ⟨rest, ⟨sl, v, hp, rfl⟩ | ⟨sl, -, rfl⟩ | ⟨-, rfl⟩ | ⟨-, rfl⟩ | ⟨w, -, hw⟩⟩
  · exact withHost_inv hi _
  · exact setBuf_inv (withHost_inv hi _) sl (pending_write hp).2
  · exact withHost_inv hi _
  · exact withHost_inv hi _
  · exact resetWith_inv _ _
  · exact issueWord_inv (withHost_inv hi _) hw

end Sys2Proof.Proofs
end

section
/-! SUPPORT. Agreement but for the next mask: each operation on the state keeps it, then each rule (10_state.md R22). -/

namespace Sys2Proof.Machine

variable {s s' : State}

/-! ## What agreeing states have in common -/

theorem agree_buf (h : AgreeButNextMask s s') (sl : Slot) : s'.buf sl = s.buf sl := State.buf_congr h.1 sl

theorem agree_len (h : AgreeButNextMask s s') (sl : Slot) : s'.len sl = s.len sl := congrArg List.length (agree_buf h sl)

theorem agree_memRead (h : AgreeButNextMask s s') (sl : Slot) (off n : Nat) : memRead s' sl off n = memRead s sl off n := by
  rw [memRead, agree_buf h, memRead]

/-! ## The operations -/

theorem raise_agree (h : AgreeButNextMask s s') (k : FaultKind) (w : CmdWord) :
    AgreeButNextMask (raise k w s) (raise k w s') := by
  obtain ⟨hmem, hmode, hkey, hmaskI, hcur, -, -, -, hres, hhost⟩ := h
  exact ⟨hmem, hmode, hkey, hmaskI, hcur, rfl, rfl, rfl, hres, hhost⟩

theorem setBuf_agree (h : AgreeButNextMask s s') (sl : Slot) (v : Bytes) :
    AgreeButNextMask (s.setBuf sl v) (s'.setBuf sl v) := by
  obtain ⟨hmem, hrest⟩ := h
  exact ⟨congrArg (·.set sl v) hmem, hrest⟩

theorem memWrite_agree (h : AgreeButNextMask s s') (sl : Slot) (off : Nat) (v : Bytes) :
    AgreeButNextMask (memWrite s sl off v) (memWrite s' sl off v) := by
  rw [memWrite, memWrite, agree_buf h]
  exact setBuf_agree h sl _

/-- A new current mask is the same on both sides. -/
theorem setCurMask_agree (h : AgreeButNextMask s s') (v : Bytes) :
    AgreeButNextMask (s.setMask s.maskI v) (s'.setMask s'.maskI v) := by
  obtain ⟨hmem, hmode, hkey, hmaskI, -, hfaulted, herr, hfcmd, hres, hhost⟩ := h
  have hcur (u : State) : (u.setMask u.maskI v).curMask = v := by simp [State.curMask]
  refine ⟨?_, ?_, ?_, ?_, (hcur s').trans (hcur s).symm, ?_, ?_, ?_, ?_, ?_⟩ <;> simpa

/-- When the next mask is overwritten and the roles are swapped, the states agree on what was written and on the mask that
was current (R98). -/
theorem swapMasks_agree (h : AgreeButNextMask s s') (v : Bytes) :
    AgreeButNextMask { s.setMask (otherMask s.maskI) v with maskI := otherMask s.maskI }
      { s'.setMask (otherMask s'.maskI) v with maskI := otherMask s'.maskI } := by
  obtain ⟨hmem, hmode, hkey, hmaskI, -, hfaulted, herr, hfcmd, hres, hhost⟩ := h
  have hcur (u : State) :
      ({ u.setMask (otherMask u.maskI) v with maskI := otherMask u.maskI } : State).curMask = v :=
    u.mask_setMask_same (otherMask u.maskI) v
  refine ⟨?_, ?_, ?_, congrArg otherMask hmaskI, (hcur s').trans (hcur s).symm, ?_, ?_, ?_, ?_, ?_⟩ <;> simpa

theorem cutPadding_agree (h : AgreeButNextMask s s') (w : CmdWord) (rd : Slot) :
    AgreeButNextMask (cutPadding w rd s) (cutPadding w rd s') := by
  simp only [cutPadding, agree_buf h, agree_len h]
  split
  · exact raise_agree h _ w
  · split
    · exact raise_agree h _ w
    · exact setBuf_agree h rd _

theorem encBlock_agree (h : AgreeButNextMask s s') (c : Config) (sl : Slot) (off : Nat) :
    AgreeButNextMask (encBlock c sl off s) (encBlock c sl off s') := by
  have ⟨_, hmode, hkey, _, hcur, _⟩ := h
  cases hm : s.mode with
  | none => simpa [encBlock, hm, hmode] using h
  | ecb =>
    rw [encBlock_ecb hm, encBlock_ecb (hmode.trans hm), agree_memRead h, hkey]
    exact memWrite_agree h sl off _
  | cbc =>
    rw [encBlock_cbc hm, encBlock_cbc (hmode.trans hm), agree_memRead h, hkey, hcur]
    exact setCurMask_agree (memWrite_agree h sl off _) _

theorem decBlock_agree (h : AgreeButNextMask s s') (c : Config) (sl : Slot) (off : Nat) :
    AgreeButNextMask (decBlock c sl off s) (decBlock c sl off s') := by
  have ⟨_, hmode, hkey, _, hcur, _⟩ := h
  cases hm : s.mode with
  | none => simpa [decBlock, hm, hmode] using h
  | ecb =>
    rw [decBlock_ecb hm, decBlock_ecb (hmode.trans hm), agree_memRead h, hkey]
    exact memWrite_agree h sl off _
  | cbc =>
    rw [decBlock_cbc hm, decBlock_cbc (hmode.trans hm), agree_memRead h, hkey, hcur]
    exact memWrite_agree (swapMasks_agree h _) sl off _

theorem encChunks_agree (h : AgreeButNextMask s s') (c : Config) (sl : Slot) (n : Nat) :
    AgreeButNextMask (encChunks c sl n s) (encChunks c sl n s') := by
  induction n with
  | zero => exact h
  | succ n ih => exact encBlock_agree ih c sl _

theorem decChunks_agree (h : AgreeButNextMask s s') (c : Config) (sl : Slot) (n : Nat) :
    AgreeButNextMask (decChunks c sl n s) (decChunks c sl n s') := by
  induction n with
  | zero => exact h
  | succ n ih => exact decBlock_agree ih c sl _

/-! ## The rules -/

/-- A rule that tests what agreeing states have in common takes the same branch in both. -/
theorem ite_agree {p : Prop} [Decidable p] {a b a' b' : State} (ha : AgreeButNextMask a a') (hb : AgreeButNextMask b b') :
    AgreeButNextMask (if p then a else b) (if p then a' else b') := by
  split
  exacts [ha, hb]

theorem commandRule_agree (h : AgreeButNextMask s s') (c : Config) (w : CmdWord) (i : Instr) :
    AgreeButNextMask (commandRule c w i s) (commandRule c w i s') := by
  have faults (k : FaultKind) : AgreeButNextMask (raise k w s) (raise k w s') := raise_agree h k w
  have ⟨hmem, hmode, hkey, hmaskI, hcur, hfaulted, herr, hfcmd, hres, hhost⟩ := h
  cases i with simp only [commandRule]
  | xor rd ra rb =>
    simp only [xorRule, agree_buf h, agree_len h]
    exact ite_agree (faults _) (setBuf_agree h rd _)
  | xori rd rb =>
    simp only [xoriRule, agree_buf h, agree_len h]
    exact ite_agree (faults _) (setBuf_agree h rd _)
  | pad rd imm8 =>
    simp only [padRule, agree_buf h, agree_len h]
    exact ite_agree (faults _) (ite_agree (setBuf_agree h rd _) (faults _))
  | unpad rd => exact cutPadding_agree h w rd
  | ecbnew ra =>
    simp only [ecbnewRule, agree_buf h, agree_len h]
    exact ite_agree (faults _) ⟨hmem, rfl, rfl, rfl, rfl, hfaulted, herr, hfcmd, hres, hhost⟩
  | cbcnew ra rb =>
    simp only [cbcnewRule, agree_buf h, agree_len h]
    exact ite_agree (faults _) (ite_agree (faults _) ⟨hmem, rfl, rfl, rfl, rfl, hfaulted, herr, hfcmd, hres, hhost⟩)
  | blksz =>
    simp only [blkszRule, hmode]
    exact ite_agree (faults _) ⟨hmem, rfl, hkey, hmaskI, hcur, hfaulted, herr, hfcmd, rfl, hhost⟩
  | encb rd =>
    simp only [encbRule, hmode, agree_len h]
    exact ite_agree (faults _) (ite_agree (faults _) (encBlock_agree h c rd 0))
  | decb rd =>
    simp only [decbRule, hmode, agree_len h]
    exact ite_agree (faults _) (ite_agree (faults _) (decBlock_agree h c rd 0))
  | enc rd =>
    simp only [encRule, hmode, agree_buf h, agree_len h, State.len_setBuf_same]
    exact ite_agree (faults _) (ite_agree (encChunks_agree (setBuf_agree h rd _) c rd _) (faults _))
  | dec rd =>
    simp only [decRule, hmode, agree_len h]
    exact ite_agree (faults _) (ite_agree (faults _) (ite_agree (faults _)
      (cutPadding_agree (decChunks_agree h c rd _) w rd)))

end Sys2Proof.Machine

namespace Sys2Proof.Proofs

open Sys2Proof.Machine

/-- Settles O45: no rule tests or copies the next mask, and CBC decryption overwrites it before it becomes current. -/
theorem nextMaskNeverInfluencesAnything : Obligations.NextMaskNeverInfluencesAnything := by
  intro i s s' t t' h ht ht'
  obtain rfl := exec_eq_next_iff.1 ht
  obtain rfl := exec_eq_next_iff.1 ht'
  exact commandRule_agree h _ _ i

end Sys2Proof.Proofs
end

section
/-! SUPPORT. The step by the host's next move, what it leaves with the host, and the frames of the transactions (20_memory.md
R38 to R42). -/

namespace Sys2Proof.Machine

variable {s : State} {m : HostMove} {rest : List HostMove}

/-! ## The move a step makes -/

theorem step_of_pending_nil (h : pending Config.impl s = []) : step s = .next (idle s) := by
  simp [step, h]

theorem step_of_pending_cons (h : pending Config.impl s = m :: rest) : step s = makeMove m rest s := by
  simp [step, h]

theorem step_of_allowed (h : s.host.moves = m :: rest) (hm : allowed Config.impl s m = true) :
    step s = makeMove m rest s :=
  step_of_pending_cons (pending_of_allowed h hm)

theorem allowed_write_iff {c : Config} {sl : Slot} {v : Bytes} :
    allowed c s (.write sl v) = true ↔ s.faulted = false ∧ c.fits v.length = true := by
  simp [allowed, HostMove.wf]

/-- Making a move replaces the host's list, so what the list held before does not matter. -/
theorem makeMove_of_moves (m : HostMove) (rest moves : List HostMove) (s : State) :
    makeMove m rest { s with host := { s.host with moves := moves } } = makeMove m rest s := by
  cases m <;> rfl

/-- A refused write is no move (R38): the step is the one of the host without it. -/
theorem step_of_refused (h : s.host.moves = m :: rest) (hm : allowed Config.impl s m = false) :
    step s = step { s with host := { s.host with moves := rest } } := by
  have hp := pending_of_refused h hm
  cases later : pending Config.impl { s with host := { s.host with moves := rest } } with
  | nil => exact (step_of_pending_nil (hp.trans later)).trans (step_of_pending_nil later).symm
  | cons m' rest' =>
    rw [step_of_pending_cons (hp.trans later), step_of_pending_cons later]
    exact (makeMove_of_moves m' rest' rest s).symm

theorem hostWrite_of_allowed {c : Config} {sl : Slot} {v : Bytes} (hf : s.faulted = false) (hv : c.fits v.length = true) :
    hostWrite c sl v s = s.setBuf sl v := by
  simp [hostWrite, hf, hv]

theorem issueWord_of_command {w : CmdWord} {i : Instr} (hf : s.faulted = false) (hd : decode w = .command i) :
    issueWord w s = exec i s := by
  simp [issueWord, hf, hd]

/-! ## What a step leaves with the host -/

theorem issueWord_total (w : CmdWord) (s : State) : ∃ t, issueWord w s = .next t := by
  rcases issueWord_cases (w := w) (s := s) rfl with ⟨-, e⟩ | ⟨-, -, e⟩ | ⟨-, i, -, e⟩
  exacts [⟨_, e⟩, ⟨_, e⟩, ⟨_, e.trans (exec_eq_commandRule i s)⟩]

/-- The host after a step of `s` whose moves still to come are the list: it reads the slots, the status registers and `RES`,
and no context register (R40). `step_host` ties it to `step`. -/
def hostAfter (s : State) : List HostMove → HostSide
  | [] => { s.host with moves := [] }
  | .write _ _ :: rest => ⟨rest, s.host.pc, .nothing⟩
  | .read sl :: rest => ⟨rest, s.host.pc, .bytes (s.buf sl)⟩
  | .status :: rest => ⟨rest, s.host.pc, .status s.faulted s.err s.fcmd s.res⟩
  | .issue _ :: rest => ⟨rest, s.host.pc + 1, .nothing⟩
  | .reset :: rest => ⟨rest, s.host.pc, .nothing⟩

theorem makeMove_host (m : HostMove) (rest : List HostMove) (s : State) :
    ∃ t, makeMove m rest s = .next t ∧ t.host = hostAfter s (m :: rest) := by
  cases m with
  | write sl v => exact ⟨_, rfl, hostWrite_host ..⟩
  | read sl => exact ⟨_, rfl, rfl⟩
  | status => exact ⟨_, rfl, rfl⟩
  | issue w =>
    obtain ⟨t, ht⟩ := issueWord_total w (takeIssue rest s)
    exact ⟨t, ht, issueWord_host ht⟩
  | reset => exact ⟨_, rfl, rfl⟩

theorem step_host (s : State) : ∃ t, step s = .next t ∧ t.host = hostAfter s (pending Config.impl s) := by
  cases hp : pending Config.impl s with
  | nil => exact ⟨_, step_of_pending_nil hp, rfl⟩
  | cons m rest => exact step_of_pending_cons hp ▸ makeMove_host m rest s

/-- No context register is visible to the host: neither its next move nor what a move returns depends on one. -/
theorem hostAfter_pending_of_context (s : State) (mode : Mode) (key mask0 mask1 : Bytes) (maskI : BitVec 1)
    (moves : List HostMove) :
    let s' := { s with mode := mode, key := key, mask0 := mask0, mask1 := mask1, maskI := maskI }
    pending Config.impl s' = pending Config.impl s ∧ hostAfter s' moves = hostAfter s moves := by
  refine ⟨rfl, ?_⟩
  cases moves with
  | nil => rfl
  | cons m rest => cases m <;> rfl

/-! ## Frames -/

theorem withHost_sameEngine (s : State) (h : HostSide) : SameEngine s { s with host := h } :=
  ⟨fun _ => ⟨rfl, fun _ => rfl⟩, ⟨rfl, rfl, rfl, rfl, rfl⟩, ⟨rfl, rfl, rfl⟩, rfl⟩

theorem State.setBuf_onlySlot (s : State) (sl : Slot) (v : Bytes) : OnlySlot sl s (s.setBuf sl v) :=
  ⟨fun sl' hne => ⟨s.len_setBuf_other v hne, (State.buf_eq_iff_byteAt s _ sl').1 (s.buf_setBuf_other v hne)⟩,
    ⟨rfl, rfl, rfl, rfl, rfl⟩, ⟨rfl, rfl, rfl⟩, rfl, rfl⟩

end Sys2Proof.Machine
end

section
/-! The host's transactions on an engine (20_memory.md R38 to R42). -/

namespace Sys2Proof.Proofs

open Sys2Proof.Machine

/-- Settles O10: an issue is always a move, and an unfaulted engine executes the command its word decodes to. -/
theorem stepRunsTheDecodedCommand : Obligations.StepRunsTheDecodedCommand := by
  intro s w i rest h hf _ hd
  exact (step_of_allowed h rfl).trans (issueWord_of_command hf hd)

/-- Settles O13: the condition of R38 is the one that makes the write a move. -/
theorem hostWriteReplacesTheSlotOrIsRefused : Obligations.HostWriteReplacesTheSlotOrIsRefused := by
  intro s sl v rest h
  split
  · next accepted =>
    have written : step s = .next ((takeMove rest s).setBuf sl v) :=
      (step_of_allowed h (allowed_write_iff.2 accepted)).trans
        (congrArg _ (hostWrite_of_allowed (s := takeMove rest s) accepted.1 accepted.2))
    obtain ⟨slots, context, status, res, host⟩ := (takeMove rest s).setBuf_onlySlot sl v
    exact ⟨_, written, host, State.buf_setBuf_same .., State.len_setBuf_same .., slots, context, status, res⟩
  · next refused => exact step_of_refused h (Bool.eq_false_iff.2 (mt allowed_write_iff.1 refused))

/-- Settles O14: a read is always a move, and it touches the host's side only. -/
theorem hostReadReturnsTheSlot : Obligations.HostReadReturnsTheSlot := by
  intro s sl rest h
  exact ⟨_, step_of_allowed h rfl, rfl, withHost_sameEngine s _⟩

/-- Settles O15: a status request is always a move and touches the host's side only; what a step leaves with the host is
`hostAfter`, which reads no context register. -/
theorem hostStatusReturnsTheStatusTuple : Obligations.HostStatusReturnsTheStatusTuple := by
  constructor
  · intro s rest h
    exact ⟨_, step_of_allowed h rfl, rfl, withHost_sameEngine s _⟩
  · intro s mode key mask0 mask1 maskI
    obtain ⟨t, ht, t_host⟩ := step_host s
    obtain ⟨u, hu, u_host⟩ := step_host { s with mode := mode, key := key, mask0 := mask0, mask1 := mask1, maskI := maskI }
    obtain ⟨same_moves, same_host⟩ := hostAfter_pending_of_context s mode key mask0 mask1 maskI (pending Config.impl s)
    exact ⟨t, u, ht, hu, (same_moves ▸ u_host).trans (same_host.trans t_host.symm)⟩

/-- Settles O16: a reset is always a move, and the registers it leaves are those of `State.resetWith`. -/
theorem resetTransactionRestoresEveryRegister : Obligations.ResetTransactionRestoresEveryRegister := by
  intro s rest h
  exact ⟨State.resetWith Config.impl (takeMove rest s).host, step_of_allowed h rfl, takeMove_host rest s,
    fun sl => ⟨State.resetWith_len _ _ sl, State.resetWith_buf _ _ sl⟩, State.resetWith_mode _ _, State.resetWith_key _ _,
    State.resetWith_mask0 _ _, State.resetWith_mask1 _ _, State.resetWith_maskI _ _, State.resetWith_faulted _ _,
    State.resetWith_err _ _, State.resetWith_fcmd _ _, State.resetWith_res _ _⟩

end Sys2Proof.Proofs
end

section
/-! SUPPORT. The decoder and the encoder, each said once (30_encoding.md R51, R54, R55, R61): the fields as numbers, the one
row a word can hit, and what fixes a word: its command's row and its command's operands. -/

namespace Sys2Proof

variable {w v : CmdWord}

/-! ## Fields (R51) -/

theorem opField_toNat (w : CmdWord) : (opField w).toNat = w.toNat / 0x1000 := by
  simp [opField, Nat.shiftRight_eq_div_pow]
  omega

theorem rdField_toNat (w : CmdWord) : (rdField w).toNat = w.toNat / 0x400 % 4 := by
  simp [rdField, Nat.shiftRight_eq_div_pow]

theorem raField_toNat (w : CmdWord) : (raField w).toNat = w.toNat / 0x100 % 4 := by
  simp [raField, Nat.shiftRight_eq_div_pow]

theorem rbField_toNat (w : CmdWord) : (rbField w).toNat = w.toNat / 0x40 % 4 := by
  simp [rbField, Nat.shiftRight_eq_div_pow]

theorem imm8Field_toNat (w : CmdWord) : (imm8Field w).toNat = w.toNat % 0x100 := by
  simp [imm8Field]

theorem Slot.num_lt (sl : Slot) : sl.num < 4 := by
  cases sl <;> decide

theorem slotOfBits_eq_iff (b : BitVec 2) (sl : Slot) : slotOfBits b = sl ↔ sl.num = b.toNat := by
  revert b
  cases sl <;> decide

/-! ## The row of a word (R54, R55) -/

theorem OpRow.hits_iff (r : OpRow) (w : CmdWord) : r.hits w = true ↔ w &&& r.mask = r.pattern := by
  simp [OpRow.hits]

/-- Every mask of R54 covers `op`, so a row is hit only by words with its `op`. -/
theorem opField_of_hits {r : OpRow} (hr : r ∈ opRows) (h : r.hits w = true) : opField w = opField r.pattern := by
  have covered : ∀ r ∈ opRows, opField r.mask = BitVec.allOnes 4 := by decide
  have masked : opField w &&& opField r.mask = opField (w &&& r.mask) := BitVec.extractLsb'_and.symm
  rwa [covered r hr, BitVec.and_allOnes, (r.hits_iff w).1 h] at masked

/-- "The rows of rule R54 do not overlap (their `op` values differ)" (R55). -/
theorem row_unique {r r' : OpRow} (hr : r ∈ opRows) (hr' : r' ∈ opRows) (h : r.hits w = true) (h' : r'.hits w = true) :
    r = r' := by
  have ops_differ : (opRows.map fun r => opField r.pattern).Nodup := by decide
  exact List.inj_on_of_nodup_map ops_differ hr hr' ((opField_of_hits hr h).symm.trans (opField_of_hits hr' h'))

theorem decode_eq_command_iff_row (w : CmdWord) (i : Instr) :
    decode w = .command i ↔ ∃ r ∈ opRows, r.hits w = true ∧ r.build w = i := by
  unfold decode
  cases found : opRows.find? (fun r => r.hits w) with
  | none => simpa using fun r hr hit => absurd hit (List.find?_eq_none.1 found r hr)
  | some r =>
    have hr := List.mem_of_find?_eq_some found
    have hit := List.find?_some found
    refine ⟨fun h => ⟨r, hr, hit, Decoded.command.inj h⟩, ?_⟩
    rintro ⟨r', hr', hit', rfl⟩
    rw [row_unique hr hr' hit hit']

theorem decode_eq_illegal (h : ∀ r ∈ opRows, ¬ r.hits w = true) :
    decode w = .illegal (if reservedOp (opField w) then .reservedOp else .mustBeZeroBit) := by
  rw [decode, List.find?_eq_none.2 h]

/-! ## A decoded command is the one in whose row the word is and whose operands it holds -/

/-- The operand fields of `w` hold the operands of the command, as the numbers of R51 and R53. -/
def HoldsOperands (w : CmdWord) : Instr → Prop
  | .xor rd ra rb => rd.num = w.toNat / 0x400 % 4 ∧ ra.num = w.toNat / 0x100 % 4 ∧ rb.num = w.toNat / 0x40 % 4
  | .xori rd rb => rd.num = w.toNat / 0x400 % 4 ∧ rb.num = w.toNat / 0x40 % 4
  | .pad rd imm8 => rd.num = w.toNat / 0x400 % 4 ∧ imm8.toNat = w.toNat % 0x100
  | .ecbnew ra => ra.num = w.toNat / 0x100 % 4
  | .cbcnew ra rb => ra.num = w.toNat / 0x100 % 4 ∧ rb.num = w.toNat / 0x40 % 4
  | .blksz => True
  | .unpad rd | .encb rd | .decb rd | .enc rd | .dec rd => rd.num = w.toNat / 0x400 % 4

theorem slotOfBits_rdField_eq_iff (w : CmdWord) (sl : Slot) :
    slotOfBits (rdField w) = sl ↔ sl.num = w.toNat / 0x400 % 4 := by
  rw [slotOfBits_eq_iff, rdField_toNat]

theorem slotOfBits_raField_eq_iff (w : CmdWord) (sl : Slot) :
    slotOfBits (raField w) = sl ↔ sl.num = w.toNat / 0x100 % 4 := by
  rw [slotOfBits_eq_iff, raField_toNat]

theorem slotOfBits_rbField_eq_iff (w : CmdWord) (sl : Slot) :
    slotOfBits (rbField w) = sl ↔ sl.num = w.toNat / 0x40 % 4 := by
  rw [slotOfBits_eq_iff, rbField_toNat]

theorem imm8Field_eq_iff (w : CmdWord) (imm8 : BitVec 8) : imm8Field w = imm8 ↔ imm8.toNat = w.toNat % 0x100 := by
  rw [← BitVec.toNat_inj, imm8Field_toNat, eq_comm]

theorem decode_eq_command_iff (w : CmdWord) (i : Instr) :
    decode w = .command i ↔ w &&& (rowOf i).2 = (rowOf i).1 ∧ HoldsOperands w i := by
  rw [decode_eq_command_iff_row]
  cases i <;>
    simp [opRows, OpRow.hits_iff, rowOf, HoldsOperands, slotOfBits_rdField_eq_iff, slotOfBits_raField_eq_iff,
      slotOfBits_rbField_eq_iff, imm8Field_eq_iff]

/-! ## The word of a command (R61) -/

theorem imm8_toNat_lt (imm8 : BitVec 8) : imm8.toNat < 256 := imm8.isLt

theorem encodeNum_lt (i : Instr) : encodeNum i < 2 ^ 16 := by
  cases i <;> grind [encodeNum, Slot.num_lt, imm8_toNat_lt]

theorem encode_toNat (i : Instr) : (encode i).toNat = encodeNum i := by
  rw [encode, BitVec.toNat_ofNat, Nat.mod_eq_of_lt (encodeNum_lt i)]

theorem holdsOperands_encode (i : Instr) : HoldsOperands (encode i) i := by
  cases i <;> grind [HoldsOperands, encode_toNat, encodeNum, Slot.num_lt, imm8_toNat_lt]

theorem encode_in_row (i : Instr) : encode i &&& (rowOf i).2 = (rowOf i).1 := by
  cases i with
  | xor rd ra rb => exact Laws.EncodesInItsRow.xor rd ra rb
  | xori rd rb => exact Laws.EncodesInItsRow.xori rd rb
  | pad rd imm8 => exact Laws.EncodesInItsRow.pad rd imm8
  | unpad rd => exact Laws.EncodesInItsRow.unpad rd
  | ecbnew ra => exact Laws.EncodesInItsRow.ecbnew ra
  | cbcnew ra rb => exact Laws.EncodesInItsRow.cbcnew ra rb
  | blksz => exact Laws.EncodesInItsRow.blksz
  | encb rd => exact Laws.EncodesInItsRow.encb rd
  | decb rd => exact Laws.EncodesInItsRow.decb rd
  | enc rd => exact Laws.EncodesInItsRow.enc rd
  | dec rd => exact Laws.EncodesInItsRow.dec rd

theorem decode_encode (i : Instr) : decode (encode i) = .command i :=
  (decode_eq_command_iff _ i).2 ⟨encode_in_row i, holdsOperands_encode i⟩

/-! ## Row and operands fix the word: a mask and the operand fields of its format cover all sixteen bits (R52) -/

/-- The two words have the same bits under the mask. -/
def AgreeOn (m w v : CmdWord) : Prop := w &&& m = v &&& m

theorem AgreeOn.or {m n : CmdWord} (hm : AgreeOn m w v) (hn : AgreeOn n w v) : AgreeOn (m ||| n) w v := by
  simp only [AgreeOn, BitVec.and_or_distrib_left] at *
  rw [hm, hn]

theorem AgreeOn.eq {m : CmdWord} (h : AgreeOn m w v) (all : m = BitVec.allOnes 16) : w = v := by
  subst all
  simpa only [AgreeOn, BitVec.and_allOnes] using h

/-- The word under the mask of a field is the field, shifted back up. -/
theorem and_fieldMask (w : CmdWord) (s n : Nat) :
    w &&& (BitVec.allOnes n).setWidth 16 <<< s = (w.extractLsb' s n).setWidth 16 <<< s := by
  ext j hj
  grind

theorem agreeOn_of_field_eq (s n : Nat) {k : Nat} (hw : (w.extractLsb' s n).toNat = k) (hv : (v.extractLsb' s n).toNat = k) :
    AgreeOn ((BitVec.allOnes n).setWidth 16 <<< s) w v := by
  rw [AgreeOn, and_fieldMask, and_fieldMask, BitVec.eq_of_toNat_eq (hw.trans hv.symm)]

theorem agreeOn_rd {k : Nat} (hw : k = w.toNat / 0x400 % 4) (hv : k = v.toNat / 0x400 % 4) : AgreeOn 0x0C00 w v :=
  agreeOn_of_field_eq 10 2 ((rdField_toNat w).trans hw.symm) ((rdField_toNat v).trans hv.symm)

theorem agreeOn_ra {k : Nat} (hw : k = w.toNat / 0x100 % 4) (hv : k = v.toNat / 0x100 % 4) : AgreeOn 0x0300 w v :=
  agreeOn_of_field_eq 8 2 ((raField_toNat w).trans hw.symm) ((raField_toNat v).trans hv.symm)

theorem agreeOn_rb {k : Nat} (hw : k = w.toNat / 0x40 % 4) (hv : k = v.toNat / 0x40 % 4) : AgreeOn 0x00C0 w v :=
  agreeOn_of_field_eq 6 2 ((rbField_toNat w).trans hw.symm) ((rbField_toNat v).trans hv.symm)

theorem agreeOn_imm8 {k : Nat} (hw : k = w.toNat % 0x100) (hv : k = v.toNat % 0x100) : AgreeOn 0x00FF w v :=
  agreeOn_of_field_eq 0 8 ((imm8Field_toNat w).trans hw.symm) ((imm8Field_toNat v).trans hv.symm)

/-- Two words in a command's row that hold the same operands are one word. -/
theorem word_unique {i : Instr} (row_w : w &&& (rowOf i).2 = (rowOf i).1) (ops_w : HoldsOperands w i)
    (row_v : v &&& (rowOf i).2 = (rowOf i).1) (ops_v : HoldsOperands v i) : w = v := by
  have row : AgreeOn (rowOf i).2 w v := row_w.trans row_v.symm
  cases i with
  | xor rd ra rb =>
    obtain ⟨rd_w, ra_w, rb_w⟩ := ops_w
    obtain ⟨rd_v, ra_v, rb_v⟩ := ops_v
    have slots := ((agreeOn_rd rd_w rd_v).or (agreeOn_ra ra_w ra_v)).or (agreeOn_rb rb_w rb_v)
    exact (AgreeOn.or (m := 0xF03F) row slots).eq (by decide)
  | xori rd rb =>
    obtain ⟨rd_w, rb_w⟩ := ops_w
    obtain ⟨rd_v, rb_v⟩ := ops_v
    have slots := (agreeOn_rd rd_w rd_v).or (agreeOn_rb rb_w rb_v)
    exact (AgreeOn.or (m := 0xF33F) row slots).eq (by decide)
  | pad rd imm8 =>
    obtain ⟨rd_w, imm8_w⟩ := ops_w
    obtain ⟨rd_v, imm8_v⟩ := ops_v
    have fields := (agreeOn_rd rd_w rd_v).or (agreeOn_imm8 imm8_w imm8_v)
    exact (AgreeOn.or (m := 0xF300) row fields).eq (by decide)
  | ecbnew ra => exact (AgreeOn.or (m := 0xFCFF) row (agreeOn_ra ops_w ops_v)).eq (by decide)
  | cbcnew ra rb =>
    obtain ⟨ra_w, rb_w⟩ := ops_w
    obtain ⟨ra_v, rb_v⟩ := ops_v
    have slots := (agreeOn_ra ra_w ra_v).or (agreeOn_rb rb_w rb_v)
    exact (AgreeOn.or (m := 0xFC3F) row slots).eq (by decide)
  | blksz => exact AgreeOn.eq (m := 0xFFFF) row (by decide)
  | unpad rd | encb rd | decb rd | enc rd | dec rd =>
    exact (AgreeOn.or (m := 0xF3FF) row (agreeOn_rd ops_w ops_v)).eq (by decide)

/-- Decoding and encoding are inverse to each other on the legal words (R61). -/
theorem decode_eq_command_iff_encode_eq (w : CmdWord) (i : Instr) : decode w = .command i ↔ encode i = w := by
  constructor
  · intro h
    obtain ⟨row, operands⟩ := (decode_eq_command_iff w i).1 h
    exact word_unique (encode_in_row i) (holdsOperands_encode i) row operands
  · rintro rfl
    exact decode_encode i

/-! ## Illegal words (R56, R57) -/

theorem reservedOp_iff (w : CmdWord) :
    reservedOp (opField w) = true ↔ w.toNat / 0x1000 = 0 ∨ 0xC ≤ w.toNat / 0x1000 := by
  have by_number : ∀ op : BitVec 4, reservedOp op = true ↔ op.toNat = 0 ∨ 0xC ≤ op.toNat := by decide
  rw [by_number, opField_toNat]

theorem decode_of_reservedOp (h : reservedOp (opField w) = true) : decode w = .illegal .reservedOp := by
  have assigned : ∀ r ∈ opRows, reservedOp (opField r.pattern) = false := by decide
  have no_row : ∀ r ∈ opRows, ¬ r.hits w = true := by
    intro r hr hit
    rw [opField_of_hits hr hit, assigned r hr] at h
    exact Bool.false_ne_true h
  rw [decode_eq_illegal no_row, if_pos h]

/-- `z` is bits that the format of the assigned operation code `op` marks as zero: the mask of the row has them and its match
value has not (R52, R54). -/
abbrev MustBeZero (op : BitVec 4) (z : CmdWord) : Prop :=
  reservedOp op = false ∧ ∀ r ∈ opRows, opField r.pattern = op → r.mask &&& z = z ∧ r.pattern &&& z = 0

theorem decode_of_mustBeZero {n : Nat} {z : CmdWord} (hz : MustBeZero (BitVec.ofNat 4 n) z) (hop : w.toNat / 0x1000 = n)
    (h : w &&& z ≠ 0) : decode w = .illegal .mustBeZeroBit := by
  obtain ⟨assigned, zero⟩ := hz
  have op_eq : opField w = BitVec.ofNat 4 n := by
    rw [← hop, ← opField_toNat, BitVec.ofNat_toNat, BitVec.setWidth_eq]
  have no_row : ∀ r ∈ opRows, ¬ r.hits w = true := by
    intro r hr hit
    obtain ⟨in_mask, not_in_pattern⟩ := zero r hr ((opField_of_hits hr hit).symm.trans op_eq)
    exact h <| calc
      w &&& z = w &&& (r.mask &&& z) := by rw [in_mask]
      _ = r.pattern &&& z := by rw [← BitVec.and_assoc, (r.hits_iff w).1 hit]
      _ = 0 := not_in_pattern
  rw [decode_eq_illegal no_row, op_eq, assigned]
  rfl

end Sys2Proof
end

section
/-! The command encoding (30_encoding.md R51 to R57, R61). -/

namespace Sys2Proof.Proofs

/-- Settles O1. -/
theorem encodingIsTheSumOfItsFields : Obligations.EncodingIsTheSumOfItsFields :=
  fun _ _ _ _ => ⟨encode_toNat _, encode_toNat _, encode_toNat _, encode_toNat _, encode_toNat _, encode_toNat _,
    encode_toNat _, encode_toNat _, encode_toNat _, encode_toNat _, encode_toNat _⟩

/-- Settles O2: the word of a command is in the command's row and holds its operands. -/
theorem decodeOfEncodeIsTheCommand : Obligations.DecodeOfEncodeIsTheCommand :=
  fun i _ => decode_encode i

/-- Settles O3: the row and the operands of a command leave no bit of its word free. -/
theorem encodeOfDecodeIsTheWord : Obligations.EncodeOfDecodeIsTheWord :=
  fun w i => (decode_eq_command_iff_encode_eq w i).1

/-- Settles O4: a word in a row decodes to the command of that row with the operands its fields hold. -/
theorem wordIsTheCommandExactlyOnItsRow : Obligations.WordIsTheCommandExactlyOnItsRow := by
  intro w
  simp [decode_eq_command_iff_row, opRows, OpRow.hits_iff]

/-- Settles O5: `HoldsOperands` is this statement but for `BLKSZ`, which has no operand and one word. -/
theorem decodedOperandsAreTheFields : Obligations.DecodedOperandsAreTheFields := by
  intro w i h
  obtain ⟨-, operands⟩ := (decode_eq_command_iff w i).1 h
  cases i with
  | blksz => exact ((decode_eq_command_iff_encode_eq w .blksz).1 h).symm
  | _ => exact operands

/-- Settles O6: no row has a reserved operation code. -/
theorem reservedOpWordsAreIllegal : Obligations.ReservedOpWordsAreIllegal :=
  have illegal := fun (w : CmdWord) h => decode_of_reservedOp ((reservedOp_iff w).2 h)
  ⟨illegal, illegal 0x0000 (by decide), illegal 0xFFFF (by decide)⟩

/-- Settles O7: the only row with the word's operation code asks for a 0 in that bit. -/
theorem mustBeZeroBitsMakeAWordIllegal : Obligations.MustBeZeroBitsMakeAWordIllegal := by
  intro w h
  split at h
  case h_12 => exact h.elim
  all_goals
    next op => exact decode_of_mustBeZero (by decide) op h

end Sys2Proof.Proofs
end

section
/-! SUPPORT. The written form (30_encoding.md R59): how the reader undoes each part of what the printer writes. -/

namespace Sys2Proof.Machine

/-! ## Tokens: what stands between the blanks, commas and semicolons of a line -/

/-- A character that does not structure a line. -/
def plainChar (ch : Char) : Bool := ch != ' ' && ch != ',' && ch != ';'

/-- A mnemonic or one operand. -/
def isToken (cs : List Char) : Bool := !cs.isEmpty && cs.all plainChar

theorem isToken_iff (cs : List Char) :
    isToken cs = true ↔ cs ≠ [] ∧ ∀ ch ∈ cs, ch ≠ ' ' ∧ ch ≠ ',' ∧ ch ≠ ';' := by
  simp [isToken, plainChar, and_assoc]

theorem slotText_isToken (sl : Slot) : isToken (slotText sl) = true := by
  cases sl <;> rfl

theorem mnemonicText_isToken (i : Instr) : isToken (mnemonicText i) = true := by
  cases i <;> rfl

theorem readSlot_slotText (sl : Slot) : readSlot? (slotText sl) = some sl := by
  cases sl <;> rfl

/-! ## Immediates -/

/-- Digits that each read back read back together, as the number they write. -/
theorem readDigits_map {base : Nat} {digit : Nat → Char} (h : ∀ d < base, digitValue? (digit d) = some d) (acc : Nat)
    (ds : List Nat) (hds : ∀ d ∈ ds, d < base) :
    readDigits? base acc (ds.map digit) = some (ds.foldl (fun value d => value * base + d) acc) := by
  induction ds generalizing acc with
  | nil => rfl
  | cons d ds ih =>
    obtain ⟨hd, hds⟩ := List.forall_mem_cons.1 hds
    simp [readDigits?, h d hd, hd, ih _ hds]

theorem decimalText_eq_map {n : Nat} (h : n < 1000) :
    ∃ ds, ds ≠ [] ∧ (∀ d ∈ ds, d < 10) ∧ decimalText n = ds.map digitText ∧
      ds.foldl (fun value d => value * 10 + d) 0 = n := by
  unfold decimalText
  split
  · exact ⟨[n], by simp, by simpa, rfl, by simp⟩
  split
  · exact ⟨[n / 10, n % 10], by simp, by simp; omega, rfl, by simp; omega⟩
  · exact ⟨[n / 100, n / 10 % 10, n % 10], by simp, by simp; omega, rfl, by simp; omega⟩

theorem hexText_eq_map {n : Nat} (h : n < 256) :
    ∃ ds, ds ≠ [] ∧ (∀ d ∈ ds, d < 16) ∧ hexText n = '0' :: 'x' :: ds.map hexDigitText ∧
      ds.foldl (fun value d => value * 16 + d) 0 = n := by
  unfold hexText
  split
  · exact ⟨[n], by simp, by simpa, rfl, by simp⟩
  · exact ⟨[n / 16, n % 16], by simp, by simp; omega, rfl, by simp; omega⟩

theorem digitText_spec :
    ∀ d < 10, digitValue? (digitText d) = some d ∧ plainChar (digitText d) = true ∧ digitText d ≠ 'x' := by
  decide

theorem hexDigitText_spec : ∀ d < 16, digitValue? (hexDigitText d) = some d ∧ plainChar (hexDigitText d) = true := by
  decide

/-- An immediate is read in decimal unless an `x` says otherwise. -/
theorem readImm_of_decimal {ds : List Char} (hne : ds ≠ []) (h : 'x' ∉ ds) :
    readImm? ds = (readDigits? 10 0 ds).bind immOfNum? := by
  unfold readImm?
  split
  · exact absurd rfl hne
  · simp at h
  · simp at h
  · rfl

theorem readImm_of_hex {ds : List Char} (hne : ds ≠ []) :
    readImm? ('0' :: 'x' :: ds) = (readDigits? 16 0 ds).bind immOfNum? := by
  cases ds with
  | nil => exact absurd rfl hne
  | cons d ds => rfl

theorem immOfNum_toNat (imm8 : BitVec 8) : immOfNum? imm8.toNat = some imm8 := by
  simp [immOfNum?, Nat.le_of_lt_succ imm8.isLt]

/-- `immText` writes every immediate as one token, and the token reads back. -/
def WritesImmediates (immText : Nat → List Char) : Prop :=
  ∀ imm8 : BitVec 8, isToken (immText imm8.toNat) = true ∧ readImm? (immText imm8.toNat) = some imm8

theorem decimalText_writesImmediates : WritesImmediates decimalText := by
  intro imm8
  obtain ⟨ds, hne, hlt, text, value⟩ := decimalText_eq_map (n := imm8.toNat) (by omega)
  have digits : readDigits? 10 0 (ds.map digitText) = some imm8.toNat :=
    value ▸ readDigits_map (fun d hd => (digitText_spec d hd).1) 0 ds hlt
  have no_x : 'x' ∉ ds.map digitText := by
    simpa using fun d hd => (digitText_spec d (hlt d hd)).2.2
  rw [text]
  constructor
  · simpa [isToken, hne] using fun d hd => (digitText_spec d (hlt d hd)).2.1
  · rw [readImm_of_decimal (by simpa) no_x, digits, Option.bind_some, immOfNum_toNat]

theorem hexText_writesImmediates : WritesImmediates hexText := by
  intro imm8
  obtain ⟨ds, hne, hlt, text, value⟩ := hexText_eq_map imm8.isLt
  have digits : readDigits? 16 0 (ds.map hexDigitText) = some imm8.toNat :=
    value ▸ readDigits_map (fun d hd => (hexDigitText_spec d hd).1) 0 ds hlt
  have marker_plain : plainChar '0' = true ∧ plainChar 'x' = true := by decide
  rw [text]
  constructor
  · simpa [isToken, marker_plain] using fun d hd => (hexDigitText_spec d (hlt d hd)).2
  · rw [readImm_of_hex (by simpa), digits, Option.bind_some, immOfNum_toNat]

/-! ## Blanks at the ends -/

/-- Neither the first nor the last character is a blank, and there are such characters. -/
def NoBlankEnds (cs : List Char) : Prop := (∃ ch ∈ cs.head?, ch ≠ ' ') ∧ ∃ ch ∈ cs.getLast?, ch ≠ ' '

theorem noBlankEnds_of_isToken {cs : List Char} (h : isToken cs = true) : NoBlankEnds cs := by
  obtain ⟨hne, plain⟩ := (isToken_iff cs).1 h
  exact ⟨⟨_, List.head?_eq_some_head hne, (plain _ (List.head_mem hne)).1⟩,
    ⟨_, List.getLast?_eq_some_getLast hne, (plain _ (List.getLast_mem hne)).1⟩⟩

theorem NoBlankEnds.append {a b : List Char} (ha : NoBlankEnds a) (m : List Char) (hb : NoBlankEnds b) :
    NoBlankEnds (a ++ m ++ b) := by
  obtain ⟨⟨first, first_mem, first_ne⟩, -⟩ := ha
  obtain ⟨-, last, last_mem, last_ne⟩ := hb
  exact ⟨⟨first, by simp_all, first_ne⟩, ⟨last, by simp_all, last_ne⟩⟩

theorem dropWhile_blank {cs : List Char} (h : ∃ ch ∈ cs.head?, ch ≠ ' ') : cs.dropWhile (· == ' ') = cs := by
  cases cs with
  | nil => rfl
  | cons ch cs => simpa using h

theorem trimBlanks_eq_self {cs : List Char} (h : NoBlankEnds cs) : trimBlanks cs = cs := by
  obtain ⟨first, last⟩ := h
  rw [trimBlanks, dropWhile_blank first, dropWhile_blank (by rwa [List.head?_reverse]), List.reverse_reverse]

theorem trimBlanks_cons_blank (cs : List Char) : trimBlanks (' ' :: cs) = trimBlanks cs := by
  simp [trimBlanks]

theorem trimBlanks_append_blank {cs : List Char} (h : NoBlankEnds cs) : trimBlanks (cs ++ [' ']) = cs := by
  obtain ⟨⟨ch, ch_mem, ch_ne⟩, last⟩ := h
  have first : ∃ ch ∈ (cs ++ [' ']).head?, ch ≠ ' ' := ⟨ch, by simp_all, ch_ne⟩
  rw [trimBlanks, dropWhile_blank first, List.reverse_append]
  simp [dropWhile_blank (cs := cs.reverse) (by rwa [List.head?_reverse])]

/-! ## Operands -/

theorem splitOperands_cons {ch : Char} {cs o : List Char} {os : List (List Char)} (h : ch ≠ ',')
    (hs : splitOperands cs = o :: os) : splitOperands (ch :: cs) = (ch :: o) :: os := by
  unfold splitOperands
  split <;> simp_all

theorem splitOperands_token {o : List Char} (h : ',' ∉ o) : splitOperands o = [o] := by
  induction o with
  | nil => rfl
  | cons ch o ih =>
    obtain ⟨hch, ho⟩ := List.ne_and_not_mem_of_not_mem_cons h
    exact splitOperands_cons hch.symm (ih ho)

theorem splitOperands_append {o : List Char} (h : ',' ∉ o) (rest : List Char) :
    splitOperands (o ++ [',', ' '] ++ rest) = o :: splitOperands rest := by
  induction o with
  | nil => rfl
  | cons ch o ih =>
    obtain ⟨hch, ho⟩ := List.ne_and_not_mem_of_not_mem_cons h
    exact splitOperands_cons hch.symm (ih ho)

/-- What `operandsText` makes of a nonempty list of tokens: no comment starts in it, it has no blank ends, and it splits
into the tokens again. -/
theorem operandsText_spec {o : List Char} {os : List (List Char)} (h : ∀ x ∈ o :: os, isToken x = true) :
    (∀ ch ∈ operandsText (o :: os), ch ≠ ';') ∧ NoBlankEnds (operandsText (o :: os)) ∧
      splitOperands (operandsText (o :: os)) = o :: os := by
  induction os generalizing o with
  | nil =>
    have token := h o (by simp)
    obtain ⟨-, plain⟩ := (isToken_iff o).1 token
    exact ⟨fun ch mem => (plain ch mem).2.2, noBlankEnds_of_isToken token,
      splitOperands_token fun mem => (plain _ mem).2.1 rfl⟩
  | cons o' os ih =>
    obtain ⟨token, tokens⟩ := List.forall_mem_cons.1 h
    obtain ⟨-, plain⟩ := (isToken_iff o).1 token
    obtain ⟨no_comment, ends, split⟩ := ih tokens
    have text : operandsText (o :: o' :: os) = o ++ [',', ' '] ++ operandsText (o' :: os) := rfl
    rw [text]
    refine ⟨?_, (noBlankEnds_of_isToken token).append _ ends, ?_⟩
    · have separator : ∀ ch ∈ [',', ' '], ch ≠ ';' := by simp
      have token_chars : ∀ ch ∈ o, ch ≠ ';' := fun ch mem => (plain ch mem).2.2
      exact List.forall_mem_append.2 ⟨List.forall_mem_append.2 ⟨token_chars, separator⟩, no_comment⟩
    · rw [splitOperands_append fun mem => (plain _ mem).2.1 rfl, split]

/-! ## Lines -/

/-- A line whose code is one token holds the command of that mnemonic without operands. -/
theorem readLine_of_mnemonic {line mnemonic : List Char} {i : Instr}
    (code : trimBlanks (line.takeWhile (· != ';')) = mnemonic) (token : isToken mnemonic = true)
    (command : readCommand? mnemonic [] = some i) : readLine line = .command i := by
  obtain ⟨hne, plain⟩ := (isToken_iff mnemonic).1 token
  have no_blank : ∀ ch ∈ mnemonic, (ch != ' ') = true := by simpa using fun ch mem => (plain ch mem).1
  unfold readLine
  rw [code]
  split
  · exact absurd rfl hne
  · simp [List.takeWhile_eq_self_iff.2 no_blank, List.dropWhile_eq_nil_iff.2 no_blank, command]

/-- A line whose code is a token, a blank and a text holds the command of that mnemonic and of the operands in the text. -/
theorem readLine_of_operands {line mnemonic text : List Char} {i : Instr}
    (code : trimBlanks (line.takeWhile (· != ';')) = mnemonic ++ [' '] ++ text) (token : isToken mnemonic = true)
    (ends : NoBlankEnds text) (command : readCommand? mnemonic (splitOperands text) = some i) :
    readLine line = .command i := by
  obtain ⟨-, plain⟩ := (isToken_iff mnemonic).1 token
  have no_blank : ∀ ch ∈ mnemonic, (ch != ' ') = true := by simpa using fun ch mem => (plain ch mem).1
  unfold readLine
  rw [code]
  split
  · next h => simp at h
  · simp [List.takeWhile_append_of_pos no_blank, List.dropWhile_append_of_pos no_blank, trimBlanks_cons_blank,
      trimBlanks_eq_self ends, command]

/-! ## The printed command -/

variable {immText : Nat → List Char}

theorem operandTexts_isToken (h : WritesImmediates immText) (i : Instr) : ∀ o ∈ operandTexts immText i, isToken o = true := by
  cases i <;> simp [operandTexts, slotText_isToken, (h _).1]

theorem readCommand_operandTexts (h : WritesImmediates immText) (i : Instr) :
    readCommand? (mnemonicText i) (operandTexts immText i) = some i := by
  cases i <;> simp [mnemonicText, operandTexts, readCommand?, readSlot_slotText, (h _).2]

theorem asmTextWith_of_nil {i : Instr} (h : operandTexts immText i = []) : asmTextWith immText i = mnemonicText i := by
  simp [asmTextWith, h]

theorem asmTextWith_of_cons {i : Instr} {o : List Char} {os : List (List Char)} (h : operandTexts immText i = o :: os) :
    asmTextWith immText i = mnemonicText i ++ [' '] ++ operandsText (o :: os) := by
  simp [asmTextWith, h]

theorem asmTextWith_spec (h : WritesImmediates immText) (i : Instr) :
    (∀ ch ∈ asmTextWith immText i, ch ≠ ';') ∧ NoBlankEnds (asmTextWith immText i) := by
  have token := mnemonicText_isToken i
  obtain ⟨-, plain⟩ := (isToken_iff _).1 token
  have no_comment : ∀ ch ∈ mnemonicText i, ch ≠ ';' := fun ch mem => (plain ch mem).2.2
  cases texts : operandTexts immText i with
  | nil =>
    rw [asmTextWith_of_nil texts]
    exact ⟨no_comment, noBlankEnds_of_isToken token⟩
  | cons o os =>
    obtain ⟨no_comment', ends, -⟩ := operandsText_spec (texts ▸ operandTexts_isToken h i)
    rw [asmTextWith_of_cons texts]
    exact ⟨List.forall_mem_append.2 ⟨List.forall_mem_append.2 ⟨no_comment, by simp⟩, no_comment'⟩,
      (noBlankEnds_of_isToken token).append _ ends⟩

/-- A line whose code is a printed command holds that command. -/
theorem readLine_of_asmTextWith (h : WritesImmediates immText) {line : List Char} {i : Instr}
    (code : trimBlanks (line.takeWhile (· != ';')) = asmTextWith immText i) : readLine line = .command i := by
  have token := mnemonicText_isToken i
  have command := readCommand_operandTexts h i
  cases texts : operandTexts immText i with
  | nil => exact readLine_of_mnemonic (code.trans (asmTextWith_of_nil texts)) token (texts ▸ command)
  | cons o os =>
    obtain ⟨-, ends, split⟩ := operandsText_spec (texts ▸ operandTexts_isToken h i)
    exact readLine_of_operands (code.trans (asmTextWith_of_cons texts)) token ends (by rw [split, ← texts, command])

theorem readLine_asmTextWith (h : WritesImmediates immText) (i : Instr) : readLine (asmTextWith immText i) = .command i := by
  obtain ⟨no_comment, ends⟩ := asmTextWith_spec h i
  refine readLine_of_asmTextWith h ?_
  rw [List.takeWhile_eq_self_iff.2 (by simpa using no_comment), trimBlanks_eq_self ends]

theorem readLine_asmTextWith_comment (h : WritesImmediates immText) (i : Instr) (comment : List Char) :
    readLine (asmTextWith immText i ++ ' ' :: ';' :: comment) = .command i := by
  obtain ⟨no_comment, ends⟩ := asmTextWith_spec h i
  refine readLine_of_asmTextWith h ?_
  rw [List.takeWhile_append_of_pos (by simpa using no_comment)]
  exact trimBlanks_append_blank ends

end Sys2Proof.Machine
end

section
/-! The written form (30_encoding.md R59). -/

namespace Sys2Proof.Proofs

open Sys2Proof.Machine

/-- Settles O9: both ways of writing an immediate satisfy `WritesImmediates`, and a line that starts with `;` has no code. -/
theorem writtenFormReadsBack : Obligations.WrittenFormReadsBack := by
  intro i comment
  have decimal := decimalText_writesImmediates
  have hexadecimal := hexText_writesImmediates
  exact ⟨readLine_asmTextWith decimal i, readLine_asmTextWith hexadecimal i, readLine_asmTextWith_comment decimal i comment,
    readLine_asmTextWith_comment hexadecimal i comment, rfl⟩

end Sys2Proof.Proofs
end

section
/-! SUPPORT. The algebra of the cyclic XOR, and XOR and XORI as one rule (40_bytexor.md R70 to R72). -/

namespace Sys2Proof.Machine

/-! ## The cyclic XOR -/

theorem cyclicByte_of_getElem? {b : Bytes} {i : Nat} {x : Byte} (h : b[i % b.length]? = some x) : cyclicByte b i = x := by
  simp [cyclicByte, List.getD_eq_getElem?_getD, h]

/-- A key of twice the period cycles through the same bytes (R72 law 4). -/
theorem cyclicByte_append_self (b : Bytes) (i : Nat) : cyclicByte (b ++ b) i = cyclicByte b i := by
  rcases Nat.eq_zero_or_pos b.length with empty | pos
  · rw [List.eq_nil_of_length_eq_zero empty, List.append_nil]
  have period : i % (b ++ b).length % b.length = i % b.length :=
    Nat.mod_mod_of_dvd i (by simp [← Nat.two_mul])
  have bound : i % (b ++ b).length < b.length + b.length := by
    rw [List.length_append]
    exact Nat.mod_lt _ (by omega)
  unfold cyclicByte
  rw [← period]
  generalize i % (b ++ b).length = j at bound ⊢
  by_cases first : j < b.length
  · rw [Nat.mod_eq_of_lt first, List.getD_append _ _ _ _ first]
  · rw [List.getD_append_right _ _ _ _ (by omega), Nat.mod_eq_sub_mod (by omega), Nat.mod_eq_of_lt (by omega)]

/-- "`(x ^ k) ^ k = x` for bytes" (R72 law 2). -/
theorem xorBytes_xorBytes_cancel (a b : Bytes) : xorBytes (xorBytes a b) b = a := by
  apply List.ext_getElem?
  intro i
  simp [xorBytes_getElem?, Function.comp_def]

theorem xorBytes_append_self (a b : Bytes) : xorBytes a (b ++ b) = xorBytes a b := by
  apply List.ext_getElem?
  intro i
  rw [xorBytes_getElem?, xorBytes_getElem?, cyclicByte_append_self]

/-! ## Slots -/

@[simp] theorem State.setBuf_setBuf (s : State) (sl : Slot) (v v' : Bytes) : (s.setBuf sl v).setBuf sl v' = s.setBuf sl v' := by
  simp [State.setBuf]

@[simp] theorem State.setBuf_buf (s : State) (sl : Slot) : s.setBuf sl (s.buf sl) = s := by
  simp [State.setBuf, State.buf]

theorem raise_onlyRaised (k : FaultKind) (w : CmdWord) (s : State) : OnlyRaised (faultCode k) w s (raise k w s) :=
  ⟨rfl, rfl, rfl, fun _ => ⟨rfl, fun _ => rfl⟩, ⟨rfl, rfl, rfl, rfl, rfl⟩, rfl, rfl⟩

theorem byteAt_setBuf_xorBytes {s : State} {ra rb : Slot} {i : Nat} {a b : Byte} (ha : s.byteAt ra i = some a)
    (hb : s.byteAt rb (i % s.len rb) = some b) (rd : Slot) :
    (s.setBuf rd (xorBytes (s.buf ra) (s.buf rb))).byteAt rd i = some (a ^^^ b) := by
  rw [State.byteAt_eq] at ha hb
  rw [State.byteAt_eq, State.buf_setBuf_same, xorBytes_getElem?, ha, cyclicByte_of_getElem? hb, Option.map_some]

/-! ## The two commands -/

/-- The two commands have one effect (90_conflicts.md C4). -/
theorem xoriRule_eq_xorRule (w : CmdWord) (rd rb : Slot) (s : State) : xoriRule w rd rb s = xorRule w rd rd rb s := rfl

/-- R70 for any word, so that it is the rule of R71 as well. -/
theorem xorRule_spec (w : CmdWord) (rd ra rb : Slot) (s : State) :
    if s.len rb = 0 then OnlyRaised 2 w s (xorRule w rd ra rb s)
    else
      (xorRule w rd ra rb s).len rd = s.len ra ∧
      (∀ i a b, s.byteAt ra i = some a → s.byteAt rb (i % s.len rb) = some b →
        (xorRule w rd ra rb s).byteAt rd i = some (a ^^^ b)) ∧
      OnlySlot rd s (xorRule w rd ra rb s) := by
  rcases xorRule_cases w rd ra rb s with ⟨empty, e⟩ | ⟨key, e⟩ <;> rw [e]
  · rw [if_pos empty]
    exact raise_onlyRaised .emptyKey w s
  · rw [if_neg key]
    exact ⟨(State.len_setBuf_same ..).trans (xorBytes_length ..), fun _ _ _ ha hb => byteAt_setBuf_xorBytes ha hb rd,
      s.setBuf_onlySlot rd _⟩

theorem xorRule_of_key {rb : Slot} {s : State} (key : 1 ≤ s.len rb) (w : CmdWord) (rd ra : Slot) :
    xorRule w rd ra rb s = s.setBuf rd (xorBytes (s.buf ra) (s.buf rb)) := by
  rcases xorRule_cases w rd ra rb s with ⟨empty, -⟩ | ⟨-, written⟩
  · omega
  · exact written

theorem exec_xor_of_key {rb : Slot} {s : State} (key : 1 ≤ s.len rb) (rd ra : Slot) :
    exec (.xor rd ra rb) s = .next (s.setBuf rd (xorBytes (s.buf ra) (s.buf rb))) :=
  (exec_eq_commandRule _ s).trans (congrArg _ (xorRule_of_key key _ rd ra))

theorem exec_xori_of_key {rb : Slot} {s : State} (key : 1 ≤ s.len rb) (rd : Slot) :
    exec (.xori rd rb) s = .next (s.setBuf rd (xorBytes (s.buf rd) (s.buf rb))) :=
  (exec_eq_commandRule _ s).trans (congrArg _ ((xoriRule_eq_xorRule _ rd rb s).trans (xorRule_of_key key _ rd rd)))

end Sys2Proof.Machine
end

section
/-! XOR and XORI (40_bytexor.md R70 to R72). -/

namespace Sys2Proof.Proofs

open Sys2Proof.Machine

/-- Settles O22. -/
theorem xorFollowsItsRule : Obligations.XorFollowsItsRule :=
  fun rd ra rb s => ⟨encode_toNat _, _, exec_eq_commandRule _ s, xorRule_spec _ rd ra rb s⟩

/-- Settles O23: the rule of XORI is that of XOR with `ra = rd`. -/
theorem xoriFollowsItsRule : Obligations.XoriFollowsItsRule := by
  intro rd rb s
  have rule := xorRule_spec (encode (.xori rd rb)) rd rd rb s
  rw [← xoriRule_eq_xorRule] at rule
  exact ⟨encode_toNat _, _, exec_eq_commandRule _ s, rule⟩

/-- Settles O47. -/
theorem xoriIsXorOntoItself : Obligations.XoriIsXorOntoItself :=
  fun rd _ _ key => (exec_xori_of_key key rd).trans (exec_xor_of_key key rd rd).symm

/-- Settles O48: the first XORI leaves the key slot alone, so the second uses the same key, which cancels. -/
theorem xoriTwiceRestores : Obligations.XoriTwiceRestores := by
  intro rd rb s hne key
  have key' : 1 ≤ (s.setBuf rd (xorBytes (s.buf rd) (s.buf rb))).len rb := by rwa [s.len_setBuf_other _ hne.symm]
  refine ⟨_, exec_xori_of_key key rd, ?_⟩
  rw [exec_xori_of_key key' rd, State.buf_setBuf_same, s.buf_setBuf_other _ hne.symm, xorBytes_xorBytes_cancel,
    State.setBuf_setBuf, State.setBuf_buf]

/-- Settles O49: doubling the key changes neither the data slot nor a byte of the cyclic key. -/
theorem doubledKeyGivesTheSameBytes : Obligations.DoubledKeyGivesTheSameBytes := by
  intro rd ra rb s hne key
  have key' : 1 ≤ (s.setBuf rb (s.buf rb ++ s.buf rb)).len rb := by
    rw [State.len_setBuf_same, List.length_append]
    exact Nat.le_add_right_of_le key
  refine ⟨_, _, exec_xor_of_key key rd ra, exec_xor_of_key key' rd ra, ?_⟩
  rw [State.buf_setBuf_same, State.buf_setBuf_same, State.buf_setBuf_same, s.buf_setBuf_other _ hne, xorBytes_append_self]

end Sys2Proof.Proofs
end

section
/-! SUPPORT. The padding as bytes of the slot, and PAD and UNPAD for any configuration and word (41_padding.md R80 to R83). -/

namespace Sys2Proof.Machine

/-! ## The padded buffer (R80, R82) -/

theorem padded_eq_withPadding (bs : Nat) (b : Bytes) : padded bs b = withPadding bs b := rfl

/-- "its first `LEN[rd]` bytes are kept" (R80). -/
theorem padded_getElem?_of_lt (bs : Nat) {b : Bytes} {i : Nat} (h : i < b.length) : (padded bs b)[i]? = b[i]? :=
  List.getElem?_append_left h

theorem padded_getElem?_of_ge {bs : Nat} {b : Bytes} {i : Nat} (h : b.length ≤ i) (h' : i < b.length + padLen bs b.length) :
    (padded bs b)[i]? = some (BitVec.ofNat 8 (padLen bs b.length)) := by
  rw [padded, List.getElem?_append_right h, rep, List.getElem?_replicate_of_lt (by omega)]

theorem padded_take (bs : Nat) (b : Bytes) : (padded bs b).take b.length = b := List.take_left

theorem padded_getLast? {bs : Nat} (h : 1 ≤ bs) (b : Bytes) :
    (padded bs b).getLast? = some (BitVec.ofNat 8 (padLen bs b.length)) := by
  have grows := (padLen_bounds h b.length).1
  rw [List.getLast?_eq_getElem?, padded_length]
  exact padded_getElem?_of_ge (by omega) (by omega)

/-- A block size of at most 255 makes the length of the padding a byte (R5, R53). -/
theorem padLen_byte {bs : Nat} (h : 1 ≤ bs) (h' : bs ≤ 255) (n : Nat) :
    (BitVec.ofNat 8 (padLen bs n)).toNat = padLen bs n := by
  have bound := (padLen_bounds h n).2
  exact Nat.mod_eq_of_lt (by omega)

/-! ## The last byte (R81) -/

theorem getLast?_buf (s : State) (sl : Slot) : (s.buf sl).getLast? = s.byteAt sl (s.len sl - 1) := List.getLast?_eq_getElem?

theorem cutPadding_of_getLast? {rd : Slot} {s : State} {n : Byte} (last : (s.buf rd).getLast? = some n)
    (h : n.toNat ≤ s.len rd) (w : CmdWord) :
    cutPadding w rd s = s.setBuf rd ((s.buf rd).take (s.len rd - n.toNat)) := by
  simp [cutPadding, lastByte?, last, Nat.not_lt.2 h]

theorem cutPadding_of_getLast?_above {rd : Slot} {s : State} {n : Byte} (last : (s.buf rd).getLast? = some n)
    (h : n.toNat > s.len rd) (w : CmdWord) : cutPadding w rd s = raise .padUnderflow w s := by
  simp [cutPadding, lastByte?, last, h]

/-- A slot that holds the one byte 1 is emptied. -/
theorem cutPadding_of_one {rd : Slot} {s : State} (h : s.buf rd = [1]) (w : CmdWord) : cutPadding w rd s = s.setBuf rd [] := by
  have length : s.len rd = 1 := congrArg List.length h
  have last : (s.buf rd).getLast? = some 1 := congrArg _ h
  rw [cutPadding_of_getLast? last length.ge, length]
  rfl

/-- "`PAD rd, bs` followed by `UNPAD rd` leaves `B[rd] = x`" (R83), and every other register too. -/
theorem cutPadding_setBuf_padded {bs : Nat} (h : 1 ≤ bs) (h' : bs ≤ 255) (w : CmdWord) (rd : Slot) (s : State) :
    cutPadding w rd (s.setBuf rd (padded bs (s.buf rd))) = s := by
  have value := padLen_byte h h' (s.buf rd).length
  have length : (s.setBuf rd (padded bs (s.buf rd))).len rd = (s.buf rd).length + padLen bs (s.buf rd).length := by
    rw [State.len_setBuf_same, padded_length]
  rw [cutPadding_of_getLast? ((congrArg _ (State.buf_setBuf_same ..)).trans (padded_getLast? h _)) (by omega), length, value,
    Nat.add_sub_cancel, State.buf_setBuf_same, padded_take, State.setBuf_setBuf, State.setBuf_buf]

/-! ## The two commands -/

theorem padRule_of_fits {c : Config} {imm8 : BitVec 8} {rd : Slot} {s : State} (h : 1 ≤ imm8.toNat)
    (fits : c.fits (s.len rd + padLen imm8.toNat (s.len rd)) = true) (w : CmdWord) :
    padRule c w rd imm8 s = s.setBuf rd (padded imm8.toNat (s.buf rd)) := by
  rcases padRule_cases c w rd imm8 s with ⟨zero, -⟩ | ⟨-, above, -⟩ | ⟨-, -, e⟩
  · omega
  · exact absurd fits (Bool.eq_false_iff.1 above)
  · exact e

/-- R80 for any configuration and word. -/
theorem padRule_spec (c : Config) (w : CmdWord) (rd : Slot) (imm8 : BitVec 8) (s : State) :
    if imm8.toNat = 0 then OnlyRaised 3 w s (padRule c w rd imm8 s)
    else if c.fits (s.len rd + padLen imm8.toNat (s.len rd)) = false then OnlyRaised 4 w s (padRule c w rd imm8 s)
    else
      (padRule c w rd imm8 s).len rd = s.len rd + padLen imm8.toNat (s.len rd) ∧
      (∀ off, off < s.len rd → (padRule c w rd imm8 s).byteAt rd off = s.byteAt rd off) ∧
      (∀ off, s.len rd ≤ off → off < (padRule c w rd imm8 s).len rd →
        ∃ b, (padRule c w rd imm8 s).byteAt rd off = some b ∧ b.toNat = padLen imm8.toNat (s.len rd)) ∧
      OnlySlot rd s (padRule c w rd imm8 s) := by
  rcases padRule_cases c w rd imm8 s with ⟨zero, e⟩ | ⟨pos, above, e⟩ | ⟨pos, fits, e⟩ <;> rw [e]
  · rw [if_pos zero]
    exact raise_onlyRaised .zeroBlockSize w s
  · rw [if_neg pos, if_pos above]
    exact raise_onlyRaised .capacity w s
  · have length : (s.setBuf rd (padded imm8.toNat (s.buf rd))).len rd = s.len rd + padLen imm8.toNat (s.len rd) :=
      (State.len_setBuf_same ..).trans (padded_length ..)
    have value := padLen_byte (Nat.one_le_iff_ne_zero.2 pos) (Nat.le_of_lt_succ imm8.isLt) (s.len rd)
    rw [if_neg pos, if_neg (Bool.not_eq_false _ ▸ fits), length]
    refine ⟨rfl, fun off kept => ?_, fun off appended bound => ⟨_, ?_, value⟩, s.setBuf_onlySlot rd _⟩
    · rw [State.byteAt_eq, State.buf_setBuf_same]
      exact padded_getElem?_of_lt _ kept
    · rw [State.byteAt_eq, State.buf_setBuf_same]
      exact padded_getElem?_of_ge appended bound

theorem unpadRule_of_byteAt_none {rd : Slot} {s : State} (h : s.byteAt rd (s.len rd - 1) = none) (w : CmdWord) :
    s.len rd = 0 ∧ OnlyRaised 5 w s (unpadRule w rd s) := by
  rw [← getLast?_buf] at h
  rw [unpadRule]
  rcases cutPadding_cases w rd s with ⟨empty, e⟩ | ⟨n, last, -, -⟩ | ⟨n, last, -, -⟩
  · rw [e]
    exact ⟨congrArg List.length empty, raise_onlyRaised .emptyBuffer w s⟩
  · simp [h] at last
  · simp [h] at last

/-- R81 for any word, where there is a last byte. -/
theorem unpadRule_of_byteAt_some {rd : Slot} {s : State} {n : Byte} (h : s.byteAt rd (s.len rd - 1) = some n)
    (w : CmdWord) :
    if n.toNat > s.len rd then OnlyRaised 6 w s (unpadRule w rd s)
    else
      (unpadRule w rd s).len rd = s.len rd - n.toNat ∧
      (∀ off, off < s.len rd - n.toNat → (unpadRule w rd s).byteAt rd off = s.byteAt rd off) ∧
      OnlySlot rd s (unpadRule w rd s) := by
  rw [← getLast?_buf] at h
  rw [unpadRule]
  split
  · next above =>
    rw [cutPadding_of_getLast?_above h above]
    exact raise_onlyRaised .padUnderflow w s
  · next fits =>
    rw [cutPadding_of_getLast? h (Nat.not_lt.1 fits)]
    refine ⟨?_, fun off kept => ?_, s.setBuf_onlySlot rd _⟩
    · rw [State.len_setBuf_same, List.length_take]
      exact Nat.min_eq_left (Nat.sub_le ..)
    · rw [State.byteAt_eq, State.buf_setBuf_same, List.getElem?_take_of_lt kept, State.byteAt_eq]

/-- A padded buffer has even length for block size 2, so a `PAD` with it never leaves one byte where there was none. -/
theorem padRule_two_len_ne_one {c : Config} {w : CmdWord} {rd : Slot} {s : State} (empty : s.len rd = 0) :
    (padRule c w rd 2 s).len rd ≠ 1 := by
  rcases padRule_cases c w rd 2 s with ⟨-, e⟩ | ⟨-, -, e⟩ | ⟨-, -, e⟩ <;> rw [e]
  · simp [empty]
  · simp [empty]
  · rw [State.len_setBuf_same, padded_length]
    change s.len rd + padLen 2 (s.len rd) ≠ 1
    simp [empty, padLen]

end Sys2Proof.Machine
end

section
/-! PAD and UNPAD (41_padding.md R80 to R83). -/

namespace Sys2Proof.Proofs

open Sys2Proof.Machine

/-- Settles O24. -/
theorem padFollowsItsRule : Obligations.PadFollowsItsRule :=
  fun rd imm8 s => ⟨encode_toNat _, _, exec_eq_commandRule _ s, padRule_spec _ _ rd imm8 s⟩

/-- Settles O25. -/
theorem unpadFollowsItsRule : Obligations.UnpadFollowsItsRule := by
  intro rd s
  refine ⟨encode_toNat _, _, exec_eq_commandRule _ s, ?_⟩
  cases last : s.byteAt rd (s.len rd - 1) with
  | none => exact unpadRule_of_byteAt_none last _
  | some n => exact unpadRule_of_byteAt_some last _

/-- Settles O50: the converse fails on a slot that holds the one byte 1, which the unpad empties: padding it again with
block size 2 cannot give one byte back, whatever the capacity. -/
theorem unpadUndoesPad : Obligations.UnpadUndoesPad := by
  constructor
  · intro rd imm8 s pos room
    have bounds := padLen_bounds pos (s.len rd)
    have fits := Config.fits_mono (Nat.add_le_add_left bounds.2 (s.len rd)) room
    have padded_len : (s.setBuf rd (padded imm8.toNat (s.buf rd))).len rd = s.len rd + padLen imm8.toNat (s.len rd) :=
      (State.len_setBuf_same ..).trans (padded_length ..)
    refine ⟨_, (exec_eq_commandRule _ s).trans (congrArg _ (padRule_of_fits pos fits _)), ?_, by omega, ?_⟩
    · rw [padded_len, add_padLen pos]
      exact Nat.mul_mod_left ..
    · exact (exec_eq_commandRule _ _).trans
        (congrArg _ (cutPadding_setBuf_padded pos (Nat.le_of_lt_succ imm8.isLt) _ rd s))
  · intro rd
    have holds : (State.reset.setBuf rd [1]).buf rd = [1] := State.buf_setBuf_same ..
    refine ⟨2, State.reset.setBuf rd [1], _, _, by decide, rfl,
      (exec_eq_commandRule _ _).trans (congrArg _ (cutPadding_of_one holds _)), rfl, exec_eq_commandRule _ _,
      fun restored => ?_⟩
    exact padRule_two_len_ne_one (State.len_setBuf_same ..) (congrArg List.length (restored.trans holds))

end Sys2Proof.Proofs
end

section
/-! SUPPORT. The parameters of the configuration that each command reads (41_padding.md R80, 42_ciphermode_block.md R90 to R98,
43_ciphermode_buffer.md R110, R111). -/

namespace Sys2Proof

theorem Config.fits_congr {c d : Config} (h : c.CAP = d.CAP) (n : Nat) : c.fits n = d.fits n := by
  rw [Config.fits, Config.fits, h]

end Sys2Proof

namespace Sys2Proof.Machine

variable {c d : Config}

/-- The configurations agree in the parameters that the rule of the command names; `commandRule_congr` ties it to the rules. -/
def SameParameters (c d : Config) : Instr → Prop
  | .xor _ _ _ | .xori _ _ | .unpad _ => True
  | .pad _ _ => c.CAP = d.CAP
  | .ecbnew _ | .cbcnew _ _ => c.KL = d.KL ∧ c.BS = d.BS
  | .blksz => c.BS = d.BS
  | .encb _ => c.BS = d.BS ∧ c.primEnc = d.primEnc
  | .decb _ | .dec _ => c.BS = d.BS ∧ c.primDec = d.primDec
  | .enc _ => c.BS = d.BS ∧ c.CAP = d.CAP ∧ c.primEnc = d.primEnc

theorem encBlock_congr (hbs : c.BS = d.BS) (henc : c.primEnc = d.primEnc) : encBlock c = encBlock d := by
  funext sl off s
  simp only [encBlock, encBlockEcb, encBlockCbc, hbs, henc]

theorem decBlock_congr (hbs : c.BS = d.BS) (hdec : c.primDec = d.primDec) : decBlock c = decBlock d := by
  funext sl off s
  simp only [decBlock, decBlockEcb, decBlockCbc, hbs, hdec]

theorem encChunks_congr (hbs : c.BS = d.BS) (henc : c.primEnc = d.primEnc) (sl : Slot) (n : Nat) (s : State) :
    encChunks c sl n s = encChunks d sl n s := by
  induction n with
  | zero => rfl
  | succ n ih => rw [encChunks, encChunks, ih, encBlock_congr hbs henc, chunkOffset, chunkOffset, hbs]

theorem decChunks_congr (hbs : c.BS = d.BS) (hdec : c.primDec = d.primDec) (sl : Slot) (n : Nat) (s : State) :
    decChunks c sl n s = decChunks d sl n s := by
  induction n with
  | zero => rfl
  | succ n ih => rw [decChunks, decChunks, ih, decBlock_congr hbs hdec, chunkOffset, chunkOffset, hbs]

/-- A rule reads no parameters but those it names. -/
theorem commandRule_congr {i : Instr} (h : SameParameters c d i) (w : CmdWord) (s : State) :
    commandRule c w i s = commandRule d w i s := by
  cases i with
  | xor rd ra rb => rfl
  | xori rd rb => rfl
  | pad rd imm8 => simp only [commandRule, padRule, Config.fits_congr h]
  | unpad rd => rfl
  | ecbnew ra =>
    obtain ⟨hkl, hbs⟩ := h
    simp only [commandRule, ecbnewRule, hkl, hbs]
  | cbcnew ra rb =>
    obtain ⟨hkl, hbs⟩ := h
    simp only [commandRule, cbcnewRule, hkl, hbs]
  | blksz =>
    have hbs : c.BS = d.BS := h
    simp only [commandRule, blkszRule, hbs]
  | encb rd =>
    obtain ⟨hbs, henc⟩ := h
    simp only [commandRule, encbRule, hbs, encBlock_congr hbs henc]
  | decb rd =>
    obtain ⟨hbs, hdec⟩ := h
    simp only [commandRule, decbRule, hbs, decBlock_congr hbs hdec]
  | enc rd =>
    obtain ⟨hbs, hcap, henc⟩ := h
    simp only [commandRule, encRule, hbs, Config.fits_congr hcap, encChunks_congr hbs henc]
  | dec rd =>
    obtain ⟨hbs, hdec⟩ := h
    simp only [commandRule, decRule, hbs, decChunks_congr hbs hdec]

/-- The meaning of a command is its rule at every configuration that has the engine's parameters. -/
theorem exec_of_sameParameters {i : Instr} (h : SameParameters c Config.impl i) (s : State) :
    exec i s = .next (commandRule c (encode i) i s) :=
  (exec_eq_commandRule i s).trans (congrArg _ (commandRule_congr h _ s).symm)

end Sys2Proof.Machine
end

section
/-! SUPPORT. The per-block steps and the chunk loops as the chaining modes on lists of blocks (42_ciphermode_block.md R94 to
R99, 43_ciphermode_buffer.md R110, R111). -/

namespace Sys2Proof.Machine

variable {c : Config} {s t : State} {sl : Slot} {off n : Nat}

/-! ## The chaining modes on a longer list (R99) -/

/-- The current mask that `MODE` leaves after it has made `cipherBlocks` of the list: in CBC the last ciphertext block. -/
def cipherMask (c : Config) (s : State) (bs : List Bytes) : Bytes :=
  match s.mode with
  | .none | .ecb => s.curMask
  | .cbc => (cbcCipher c s.key s.curMask bs).getLastD s.curMask

/-- The current mask that `MODE` leaves after it has made `plainBlocks` of the list: in CBC the last ciphertext block. -/
def plainMask (s : State) (bs : List Bytes) : Bytes :=
  match s.mode with
  | .none | .ecb => s.curMask
  | .cbc => bs.getLastD s.curMask

theorem getLastD_append (bs bs' : List Bytes) (cur : Bytes) : (bs ++ bs').getLastD cur = bs'.getLastD (bs.getLastD cur) := by
  simp only [List.getLastD_eq_getLast?, List.getLast?_append, Option.getD_or]

theorem cbcCipher_append (c : Config) (key cur : Bytes) (bs bs' : List Bytes) :
    cbcCipher c key cur (bs ++ bs') =
      cbcCipher c key cur bs ++ cbcCipher c key ((cbcCipher c key cur bs).getLastD cur) bs' := by
  induction bs generalizing cur with
  | nil => rfl
  | cons b bs ih => simp only [List.cons_append, cbcCipher, ih, List.getLastD_cons]

theorem cbcPlain_append (c : Config) (key cur : Bytes) (bs bs' : List Bytes) :
    cbcPlain c key cur (bs ++ bs') = cbcPlain c key cur bs ++ cbcPlain c key (bs.getLastD cur) bs' := by
  induction bs generalizing cur with
  | nil => rfl
  | cons b bs ih => simp only [List.cons_append, cbcPlain, ih, List.getLastD_cons]

/-- A state that has made ciphertext of the first blocks goes on with the others. -/
theorem cipherBlocks_append {bs : List Bytes} (hmode : t.mode = s.mode) (hkey : t.key = s.key)
    (hmask : t.curMask = cipherMask c s bs) (bs' : List Bytes) :
    cipherBlocks c s (bs ++ bs') = cipherBlocks c s bs ++ cipherBlocks c t bs' ∧
      cipherMask c s (bs ++ bs') = cipherMask c t bs' := by
  cases hm : s.mode <;> simp only [cipherBlocks, cipherMask, hmode, hkey, hm] at hmask ⊢
  case none => exact ⟨trivial, hmask.symm⟩
  case ecb => exact ⟨List.map_append, hmask.symm⟩
  case cbc =>
    rw [hmask]
    exact ⟨cbcCipher_append .., by rw [cbcCipher_append, getLastD_append]⟩

/-- A state that has made plaintext of the first blocks goes on with the others. -/
theorem plainBlocks_append {bs : List Bytes} (hmode : t.mode = s.mode) (hkey : t.key = s.key)
    (hmask : t.curMask = plainMask s bs) (bs' : List Bytes) :
    plainBlocks c s (bs ++ bs') = plainBlocks c s bs ++ plainBlocks c t bs' ∧
      plainMask s (bs ++ bs') = plainMask t bs' := by
  cases hm : s.mode <;> simp only [plainBlocks, plainMask, hmode, hkey, hm] at hmask ⊢
  case none => exact ⟨trivial, hmask.symm⟩
  case ecb => exact ⟨List.map_append, hmask.symm⟩
  case cbc =>
    rw [hmask]
    exact ⟨cbcPlain_append .., by rw [getLastD_append]⟩

theorem length_of_mem_cbcCipher {key cur x : Bytes} {bs : List Bytes} (h : x ∈ cbcCipher c key cur bs) : x.length = c.BS := by
  induction bs generalizing cur with
  | nil => exact absurd h List.not_mem_nil
  | cons b bs ih =>
    rcases List.mem_cons.1 h with rfl | later
    exacts [c.primEnc_length .., ih later]

theorem length_getLastD {cur : Bytes} {bs : List Bytes} (hcur : cur.length = n) (hbs : ∀ b ∈ bs, b.length = n) :
    (bs.getLastD cur).length = n := by
  rcases List.mem_cons.1 (List.getLastD_mem_cons (a := cur) (l := bs)) with first | later
  exacts [(congrArg _ first).trans hcur, hbs _ later]

theorem cipherMask_length (h : s.curMask.length = c.BS) (bs : List Bytes) : (cipherMask c s bs).length = c.BS := by
  cases hm : s.mode <;> simp only [cipherMask, hm]
  case cbc => exact length_getLastD h fun _ => length_of_mem_cbcCipher
  all_goals exact h

theorem plainMask_length (h : s.curMask.length = c.BS) {bs : List Bytes} (hbs : ∀ b ∈ bs, b.length = c.BS) :
    (plainMask s bs).length = c.BS := by
  cases hm : s.mode <;> simp only [plainMask, hm]
  case cbc => exact length_getLastD h hbs
  all_goals exact h

/-! ## One block -/

/-- The block step replaces its block by what `MODE` makes of it and leaves the bytes before and after it alone. -/
theorem encBlock_buf (hmask : s.curMask.length = c.BS) (h : off + c.BS ≤ s.len sl) :
    (encBlock c sl off s).buf sl =
      (s.buf sl).take off ++ (cipherBlocks c s [memRead s sl off c.BS]).flatten ++ (s.buf sl).drop (off + c.BS) := by
  cases hm : s.mode with
  | none => simp [encBlock, cipherBlocks, hm, memRead, ← List.drop_drop]
  | ecb => simp [encBlock_ecb hm, memWrite_buf_same, cipherBlocks, hm]
  | cbc =>
    have block := xorBytes_eq_xorBlock ((memRead_length h).trans hmask.symm)
    simp [encBlock_cbc hm, memWrite_buf_same, cipherBlocks, hm, cbcCipher, block]

theorem encBlock_curMask (hmask : s.curMask.length = c.BS) (h : off + c.BS ≤ s.len sl) :
    (encBlock c sl off s).curMask = cipherMask c s [memRead s sl off c.BS] := by
  cases hm : s.mode with
  | none => simp [encBlock, cipherMask, hm]
  | ecb =>
    rw [encBlock_ecb hm, cipherMask, hm]
    rfl
  | cbc =>
    have block := xorBytes_eq_xorBlock ((memRead_length h).trans hmask.symm)
    rw [encBlock_cbc hm, cipherMask, hm, block, State.curMask, State.setMask_maskI, memWrite_maskI]
    exact State.mask_setMask_same ..

theorem decBlock_buf (hmask : s.curMask.length = c.BS) :
    (decBlock c sl off s).buf sl =
      (s.buf sl).take off ++ (plainBlocks c s [memRead s sl off c.BS]).flatten ++ (s.buf sl).drop (off + c.BS) := by
  cases hm : s.mode with
  | none => simp [decBlock, plainBlocks, hm, memRead, ← List.drop_drop]
  | ecb => simp [decBlock_ecb hm, memWrite_buf_same, plainBlocks, hm]
  | cbc =>
    have block := xorBytes_eq_xorBlock ((c.primDec_length s.key (memRead s sl off c.BS)).trans hmask.symm)
    rw [decBlock_cbc hm, plainBlocks, hm]
    refine (memWrite_buf_same ..).trans ?_
    rw [xorBytes_length, c.primDec_length, block, State.setMask_buf]
    simp [cbcPlain]

theorem decBlock_curMask (c : Config) (sl : Slot) (off : Nat) (s : State) :
    (decBlock c sl off s).curMask = plainMask s [memRead s sl off c.BS] := by
  cases hm : s.mode with
  | none => simp [decBlock, plainMask, hm]
  | ecb =>
    rw [decBlock_ecb hm, plainMask, hm]
    rfl
  | cbc =>
    rw [decBlock_cbc hm, plainMask, hm]
    exact State.mask_setMask_same ..

/-! ## The chunks of a buffer -/

/-- The first `n` chunks of a buffer; `chunks_eq_firstChunks` ties it to `chunks`. -/
def firstChunks (c : Config) (b : Bytes) (n : Nat) : List Bytes := (List.range n).map (chunk c b)

theorem chunks_eq_firstChunks {b : Bytes} (h : n * c.BS = b.length) : chunks c b = firstChunks c b n := by
  rw [chunks, ← h, Nat.mul_div_cancel _ c.BS_pos, firstChunks]

theorem firstChunks_succ (c : Config) (b : Bytes) (n : Nat) : firstChunks c b (n + 1) = firstChunks c b n ++ [chunk c b n] := by
  rw [firstChunks, List.range_succ, List.map_append, firstChunks, List.map_singleton]

theorem chunk_length {b : Bytes} {k : Nat} (h : (k + 1) * c.BS ≤ b.length) : (chunk c b k).length = c.BS := by
  rw [Nat.add_mul, Nat.one_mul] at h
  rw [chunk, List.length_take, List.length_drop]
  omega

theorem length_of_mem_firstChunks {b x : Bytes} (h : n * c.BS ≤ b.length) (hx : x ∈ firstChunks c b n) : x.length = c.BS := by
  obtain ⟨k, hk, rfl⟩ := List.mem_map.1 hx
  exact chunk_length ((Nat.mul_le_mul_right c.BS (List.mem_range.1 hk)).trans h)

/-! ## The loops -/

/-- A loop that has replaced the first `n` chunks finds the old chunk `n` next. -/
theorem next_chunk_of_buf {done : Bytes} (hbuf : t.buf sl = done ++ (s.buf sl).drop (n * c.BS)) (hlen : t.len sl = s.len sl)
    (h : n * c.BS ≤ s.len sl) :
    (t.buf sl).take (chunkOffset c n) = done ∧ memRead t sl (chunkOffset c n) c.BS = chunk c (s.buf sl) n ∧
      (t.buf sl).drop (chunkOffset c n + c.BS) = (s.buf sl).drop ((n + 1) * c.BS) := by
  have place : done.length = n * c.BS := by
    have total := congrArg List.length hbuf
    rw [List.length_append, List.length_drop] at total
    simp only [State.len] at hlen h
    omega
  have dropped : (t.buf sl).drop (chunkOffset c n) = (s.buf sl).drop (n * c.BS) := by
    rw [hbuf, chunkOffset, ← place, List.drop_left]
  refine ⟨?_, ?_, ?_⟩
  · rw [hbuf, chunkOffset, ← place, List.take_left]
  · rw [memRead, dropped, chunk]
  · rw [← List.drop_drop, dropped, List.drop_drop, Nat.add_mul, Nat.one_mul]

/-- What the encryption of the first `n` chunks makes of the slot and of the current mask (R99, R110). -/
theorem encChunks_eq_cipherBlocks (hmask : s.curMask.length = c.BS) (h : n * c.BS ≤ s.len sl) :
    (encChunks c sl n s).buf sl =
        (cipherBlocks c s (firstChunks c (s.buf sl) n)).flatten ++ (s.buf sl).drop (n * c.BS) ∧
      (encChunks c sl n s).curMask = cipherMask c s (firstChunks c (s.buf sl) n) := by
  induction n with
  | zero => cases hm : s.mode <;> simp [encChunks, firstChunks, cipherBlocks, cipherMask, hm, cbcCipher]
  | succ n ih =>
    have room : n * c.BS + c.BS ≤ s.len sl := by rwa [Nat.add_mul, Nat.one_mul] at h
    have before : n * c.BS ≤ s.len sl := Nat.le_of_add_right_le room
    obtain ⟨hbuf, hcur⟩ := ih before
    have hlen := encChunks_len before sl
    obtain ⟨hmode, hkey, -⟩ := encChunks_frame c sl n s
    have hmask' := (congrArg List.length hcur).trans (cipherMask_length hmask _)
    obtain ⟨done, block, rest⟩ := next_chunk_of_buf hbuf hlen before
    obtain ⟨blocks, mask⟩ := cipherBlocks_append hmode hkey hcur [chunk c (s.buf sl) n]
    have room' : chunkOffset c n + c.BS ≤ (encChunks c sl n s).len sl := room.trans hlen.ge
    rw [encChunks, encBlock_buf hmask' room', encBlock_curMask hmask' room', done, block, rest, firstChunks_succ, blocks, mask,
      List.flatten_append]
    exact ⟨rfl, rfl⟩

/-- What the decryption of the first `n` chunks makes of the slot and of the current mask (R99, R111). -/
theorem decChunks_eq_plainBlocks (hmask : s.curMask.length = c.BS) (h : n * c.BS ≤ s.len sl) :
    (decChunks c sl n s).buf sl =
        (plainBlocks c s (firstChunks c (s.buf sl) n)).flatten ++ (s.buf sl).drop (n * c.BS) ∧
      (decChunks c sl n s).curMask = plainMask s (firstChunks c (s.buf sl) n) := by
  induction n with
  | zero => cases hm : s.mode <;> simp [decChunks, firstChunks, plainBlocks, plainMask, hm, cbcPlain]
  | succ n ih =>
    have before : n * c.BS ≤ s.len sl := (Nat.mul_le_mul_right _ n.le_succ).trans h
    obtain ⟨hbuf, hcur⟩ := ih before
    obtain ⟨hmode, hkey, -⟩ := decChunks_frame c sl n s
    have hmask' := (congrArg List.length hcur).trans (plainMask_length hmask fun _ => length_of_mem_firstChunks before)
    obtain ⟨done, block, rest⟩ := next_chunk_of_buf hbuf (decChunks_len before sl) before
    obtain ⟨blocks, mask⟩ := plainBlocks_append hmode hkey hcur [chunk c (s.buf sl) n]
    rw [decChunks, decBlock_buf hmask', decBlock_curMask, done, block, rest, firstChunks_succ, blocks, mask, List.flatten_append]
    exact ⟨rfl, rfl⟩

/-- The encryption of all chunks of a slot. -/
theorem encChunks_buf_of_len (hmask : s.curMask.length = c.BS) (h : n * c.BS = s.len sl) :
    (encChunks c sl n s).buf sl = (cipherBlocks c s (chunks c (s.buf sl))).flatten := by
  rw [(encChunks_eq_cipherBlocks hmask h.le).1, h, State.len, List.drop_length, List.append_nil, chunks_eq_firstChunks h]

/-- The decryption of all chunks of a slot. -/
theorem decChunks_buf_of_len (hmask : s.curMask.length = c.BS) (h : n * c.BS = s.len sl) :
    (decChunks c sl n s).buf sl = decrypted c s sl := by
  rw [(decChunks_eq_plainBlocks hmask h.le).1, h, State.len, List.drop_length, List.append_nil, decrypted,
    chunks_eq_firstChunks h]

/-! ## The rules where their tests pass -/

section

variable {rd ra rb : Slot}

theorem ecbnewRule_of_key (hk : s.len ra = c.KL) (w : CmdWord) :
    ecbnewRule c w ra s =
      { s with key := s.buf ra, mode := .ecb, mask0 := zeros c.BS, mask1 := zeros c.BS, maskI := 0 } := by
  rcases ecbnewRule_cases c w ra s with ⟨no, -⟩ | ⟨-, e⟩
  exacts [absurd hk no, e]

theorem cbcnewRule_of_key_iv (hk : s.len ra = c.KL) (hv : s.len rb = c.BS) (w : CmdWord) :
    cbcnewRule c w ra rb s =
      { s with key := s.buf ra, mode := .cbc, maskI := 0, mask0 := s.buf rb, mask1 := zeros c.BS } := by
  rcases cbcnewRule_cases c w ra rb s with ⟨no, -⟩ | ⟨-, no, -⟩ | ⟨-, -, e⟩
  exacts [absurd hk no, absurd hv no, e]

theorem blkszRule_of_mode (hm : s.mode ≠ .none) (w : CmdWord) : blkszRule c w s = { s with res := c.BS } := by
  rcases blkszRule_cases c w s with ⟨no, -⟩ | ⟨-, e⟩
  exacts [absurd no hm, e]

theorem encbRule_of_block (hm : s.mode ≠ .none) (hl : s.len rd = c.BS) (w : CmdWord) :
    encbRule c w rd s = encBlock c rd 0 s := by
  rcases encbRule_cases c w rd s with ⟨no, -⟩ | ⟨-, no, -⟩ | ⟨-, -, e⟩
  exacts [absurd no hm, absurd hl no, e]

theorem decbRule_of_block (hm : s.mode ≠ .none) (hl : s.len rd = c.BS) (w : CmdWord) :
    decbRule c w rd s = decBlock c rd 0 s := by
  rcases decbRule_cases c w rd s with ⟨no, -⟩ | ⟨-, no, -⟩ | ⟨-, -, e⟩
  exacts [absurd no hm, absurd hl no, e]

theorem encRule_of_fits (hm : s.mode ≠ .none) (hf : c.fits (s.len rd + padLen c.BS (s.len rd)) = true) (w : CmdWord) :
    encRule c w rd s = encChunks c rd (s.len rd / c.BS + 1) (s.setBuf rd (padded c.BS (s.buf rd))) := by
  rcases encRule_cases c w rd s with ⟨no, -⟩ | ⟨-, no, -⟩ | ⟨-, -, e⟩
  exacts [absurd no hm, absurd hf (Bool.eq_false_iff.1 no), e]

theorem decRule_of_chunks (hm : s.mode ≠ .none) (ha : s.len rd % c.BS = 0) (hne : s.len rd ≠ 0) (w : CmdWord) :
    decRule c w rd s = cutPadding w rd (decChunks c rd (s.len rd / c.BS) s) := by
  rcases decRule_cases c w rd s with ⟨no, -⟩ | ⟨-, no, -⟩ | ⟨-, -, no, -⟩ | ⟨-, -, -, e⟩
  exacts [absurd no hm, absurd ha no, absurd no hne, e]

/-! ## What the rules leave in the slot (R93, R96, R110, R111) -/

theorem encbRule_buf (hm : s.mode ≠ .none) (hmask : s.curMask.length = c.BS) (hl : s.len rd = c.BS) (w : CmdWord) :
    (encbRule c w rd s).buf rd = (cipherBlocks c s [s.buf rd]).flatten := by
  rw [encbRule_of_block hm hl, encBlock_buf hmask (by omega), memRead_whole hl, Nat.zero_add, ← hl, State.len,
    List.drop_length, List.take_zero, List.nil_append, List.append_nil]

theorem decbRule_buf (hm : s.mode ≠ .none) (hmask : s.curMask.length = c.BS) (hl : s.len rd = c.BS) (w : CmdWord) :
    (decbRule c w rd s).buf rd = (plainBlocks c s [s.buf rd]).flatten := by
  rw [decbRule_of_block hm hl, decBlock_buf hmask, memRead_whole hl, Nat.zero_add, ← hl, State.len,
    List.drop_length, List.take_zero, List.nil_append, List.append_nil]

theorem encRule_buf (hm : s.mode ≠ .none) (hmask : s.curMask.length = c.BS)
    (hf : c.fits (s.len rd + padLen c.BS (s.len rd)) = true) (w : CmdWord) :
    (encRule c w rd s).buf rd = (cipherBlocks c s (chunks c (withPadding c.BS (s.buf rd)))).flatten := by
  rw [encRule_of_fits hm hf]
  refine (encChunks_buf_of_len (s := s.setBuf rd _) hmask (len_setBuf_padded c rd s).symm).trans ?_
  rw [State.buf_setBuf_same, padded_eq_withPadding]
  rfl

theorem decChunks_buf_div (hmask : s.curMask.length = c.BS) (ha : s.len rd % c.BS = 0) :
    (decChunks c rd (s.len rd / c.BS) s).buf rd = decrypted c s rd :=
  decChunks_buf_of_len hmask (Nat.div_mul_cancel (Nat.dvd_of_mod_eq_zero ha))

/-- The block steps change no length (R111). -/
theorem decrypted_length (hmask : s.curMask.length = c.BS) (ha : s.len rd % c.BS = 0) :
    (decrypted c s rd).length = s.len rd := by
  rw [← decChunks_buf_div hmask ha]
  exact decChunks_len (Nat.div_mul_le_self ..) rd

theorem getLast?_eq_getLastD {b : Bytes} (h : b ≠ []) : b.getLast? = some (b.getLastD 0) := by
  rw [List.getLastD_eq_getLast?, List.getLast?_eq_some_getLast h, Option.getD_some]

theorem decRule_buf (hm : s.mode ≠ .none) (hmask : s.curMask.length = c.BS) (ha : s.len rd % c.BS = 0) (hne : s.len rd ≠ 0)
    (hcut : ((decrypted c s rd).getLastD 0).toNat ≤ s.len rd) (w : CmdWord) :
    (decRule c w rd s).buf rd = (decrypted c s rd).take (s.len rd - ((decrypted c s rd).getLastD 0).toNat) := by
  have length := decrypted_length hmask ha
  have nonempty : decrypted c s rd ≠ [] := List.ne_nil_of_length_pos (by omega)
  have content := decChunks_buf_div hmask ha
  have len : (decChunks c rd (s.len rd / c.BS) s).len rd = s.len rd := decChunks_len (Nat.div_mul_le_self ..) rd
  have last := (congrArg _ content).trans (getLast?_eq_getLastD nonempty)
  rw [decRule_of_chunks hm ha hne, cutPadding_of_getLast? last (hcut.trans len.ge), State.buf_setBuf_same, content, len]

end

end Sys2Proof.Machine
end

section
/-! The commands that the configuration gives a meaning (41_padding.md section 1, 42_ciphermode_block.md,
43_ciphermode_buffer.md sections 1 and 2). -/

namespace Sys2Proof.Proofs

open Sys2Proof.Machine

/-- Settles O21: each clause is `exec_of_sameParameters` for its command and what its rule leaves where its tests pass. -/
theorem meaningsAreTheRulesOfTheConfiguration : Obligations.MeaningsAreTheRulesOfTheConfiguration := by
  intro c w rd ra rb imm8 s
  refine ⟨⟨fun cap => exec_of_sameParameters (i := .pad rd imm8) cap s, fun pos fits => ?_⟩,
    ⟨fun kl bs => exec_of_sameParameters (i := .ecbnew ra) ⟨kl, bs⟩ s, fun key => ?_⟩,
    ⟨fun kl bs => exec_of_sameParameters (i := .cbcnew ra rb) ⟨kl, bs⟩ s, fun key iv => ?_⟩,
    ⟨fun bs => exec_of_sameParameters (i := .blksz) bs s, fun mode => ?_⟩,
    ⟨fun bs enc => exec_of_sameParameters (i := .encb rd) ⟨bs, enc⟩ s,
      fun mode mask block => encbRule_buf mode mask block w⟩,
    ⟨fun bs dec => exec_of_sameParameters (i := .decb rd) ⟨bs, dec⟩ s,
      fun mode mask block => decbRule_buf mode mask block w⟩,
    ⟨fun bs cap enc => exec_of_sameParameters (i := .enc rd) ⟨bs, cap, enc⟩ s,
      fun mode mask fits => encRule_buf mode mask fits w⟩,
    ⟨fun bs dec => exec_of_sameParameters (i := .dec rd) ⟨bs, dec⟩ s,
      fun mode mask aligned nonempty cut => decRule_buf mode mask aligned nonempty cut w⟩⟩
  · rw [padRule_of_fits pos fits, State.buf_setBuf_same, padded_eq_withPadding]
  · rw [ecbnewRule_of_key key]
    exact ⟨rfl, rfl, rfl, rfl⟩
  · rw [cbcnewRule_of_key_iv key iv]
    exact ⟨rfl, rfl, rfl, if_neg (otherMask_ne 0)⟩
  · rw [blkszRule_of_mode mode]

end Sys2Proof.Proofs
end

section
/-! SUPPORT. The block step on a slot that holds one block, and `ENC` in ECB, where no mask is read (42_ciphermode_block.md R93
to R100). -/

namespace Sys2Proof.Machine

variable {c : Config} {s t : State} {rd : Slot} {n : Nat}

/-! ## Frames and masks -/

theorem sameSlotsBut_of_buf (h : ∀ sl, sl ≠ rd → t.buf sl = s.buf sl) : SameSlotsBut rd s t :=
  fun sl hne => ⟨congrArg List.length (h sl hne), (State.buf_eq_iff_byteAt s t sl).1 (h sl hne)⟩

/-- "mask length always equals block size" (R18), of the mask that `MASK_I` names. -/
theorem State.curMask_length (h0 : s.mask0.length = n) (h1 : s.mask1.length = n) : s.curMask.length = n := by
  unfold State.curMask State.mask
  split
  exacts [h0, h1]

theorem Mode.eq_cbc {m : Mode} (hn : m ≠ .none) (he : m ≠ .ecb) : m = .cbc := by
  cases m with
  | none => exact absurd rfl hn
  | ecb => exact absurd rfl he
  | cbc => rfl

/-! ## The block step at offset 0 of a slot of `BS` bytes (R93, R96) -/

theorem encBlock_ecb_whole (hm : s.mode = .ecb) (hl : s.len rd = c.BS) :
    encBlock c rd 0 s = s.setBuf rd (c.primEnc s.key (s.buf rd)) := by
  rw [encBlock_ecb hm, memRead_whole hl, memWrite_whole ((c.primEnc_length ..).trans hl.symm)]

theorem decBlock_ecb_whole (hm : s.mode = .ecb) (hl : s.len rd = c.BS) :
    decBlock c rd 0 s = s.setBuf rd (c.primDec s.key (s.buf rd)) := by
  rw [decBlock_ecb hm, memRead_whole hl, memWrite_whole ((c.primDec_length ..).trans hl.symm)]

/-- What R95 leaves in the slot and in the masks. -/
theorem encBlock_cbc_whole (hm : s.mode = .cbc) (hmask : s.curMask.length = c.BS) (hl : s.len rd = c.BS) :
    (encBlock c rd 0 s).buf rd = c.primEnc s.key (xorBlock (s.buf rd) s.curMask) ∧
      (encBlock c rd 0 s).mask s.maskI = (encBlock c rd 0 s).buf rd ∧
      (encBlock c rd 0 s).mask (otherMask s.maskI) = s.mask (otherMask s.maskI) := by
  have block : xorBytes (s.buf rd) s.curMask = xorBlock (s.buf rd) s.curMask := xorBytes_eq_xorBlock (hl.trans hmask.symm)
  rw [encBlock_cbc hm, memRead_whole hl, block, memWrite_whole ((c.primEnc_length ..).trans hl.symm), State.setMask_buf,
    State.buf_setBuf_same]
  exact ⟨rfl, State.mask_setMask_same .., State.mask_setMask_other _ _ (otherMask_ne _)⟩

/-- What R98 leaves in the slot, in the masks and in `MASK_I`. -/
theorem decBlock_cbc_whole (hm : s.mode = .cbc) (hmask : s.curMask.length = c.BS) (hl : s.len rd = c.BS) :
    (decBlock c rd 0 s).buf rd = xorBlock (c.primDec s.key (s.buf rd)) s.curMask ∧
      (decBlock c rd 0 s).maskI = otherMask s.maskI ∧
      (decBlock c rd 0 s).mask (otherMask s.maskI) = s.buf rd ∧
      (decBlock c rd 0 s).mask s.maskI = s.mask s.maskI := by
  have block : xorBytes (c.primDec s.key (s.buf rd)) s.curMask = xorBlock (c.primDec s.key (s.buf rd)) s.curMask :=
    xorBytes_eq_xorBlock ((c.primDec_length ..).trans hmask.symm)
  have whole : (xorBytes (c.primDec s.key (s.buf rd)) s.curMask).length =
      (s.setMask (otherMask s.maskI) (s.buf rd)).len rd := by
    rw [xorBytes_length, c.primDec_length, State.setMask_len, hl]
  rw [decBlock_cbc hm, memRead_whole hl, memWrite_whole whole, block]
  exact ⟨State.buf_setBuf_same .., rfl, State.mask_setMask_same .., State.mask_setMask_other _ _ (otherMask_ne _).symm⟩

theorem exec_encb_ecb (hm : s.mode = .ecb) (hl : s.len rd = Config.impl.BS) :
    exec (.encb rd) s = .next (s.setBuf rd (Config.impl.primEnc s.key (s.buf rd))) := by
  have mode : s.mode ≠ .none := by simp [hm]
  exact (exec_eq_commandRule _ s).trans (congrArg _ ((encbRule_of_block mode hl _).trans (encBlock_ecb_whole hm hl)))

/-! ## `ENC` in ECB -/

/-- The state with other masks. -/
def State.withMasks (s : State) (m0 m1 : Bytes) : State := { s with mask0 := m0, mask1 := m1 }

theorem encBlock_ecb_withMasks (hm : s.mode = .ecb) (c : Config) (sl : Slot) (off : Nat) (m0 m1 : Bytes) :
    encBlock c sl off (s.withMasks m0 m1) = (encBlock c sl off s).withMasks m0 m1 := by
  rw [encBlock_ecb hm, encBlock_ecb (s := s.withMasks m0 m1) hm]
  rfl

/-- In ECB the loop neither reads nor writes a mask (R94). -/
theorem encChunks_ecb_withMasks (hm : s.mode = .ecb) (c : Config) (sl : Slot) (n : Nat) (m0 m1 : Bytes) :
    encChunks c sl n (s.withMasks m0 m1) = (encChunks c sl n s).withMasks m0 m1 := by
  induction n with
  | zero => rfl
  | succ n ih =>
    have mode : (encChunks c sl n s).mode = .ecb := (encChunks_frame c sl n s).1.trans hm
    rw [encChunks, encChunks, ih, encBlock_ecb_withMasks mode]

theorem encRule_ecb_withMasks (hm : s.mode = .ecb) (hf : c.fits (s.len rd + padLen c.BS (s.len rd)) = true) (w : CmdWord)
    (m0 m1 : Bytes) : encRule c w rd (s.withMasks m0 m1) = (encRule c w rd s).withMasks m0 m1 := by
  have mode : s.mode ≠ .none := by simp [hm]
  rw [encRule_of_fits mode hf, encRule_of_fits (s := s.withMasks m0 m1) mode hf]
  exact encChunks_ecb_withMasks (s := s.setBuf rd _) hm ..

theorem cipherBlocks_ecb (hm : s.mode = .ecb) (c : Config) (bs : List Bytes) :
    cipherBlocks c s bs = bs.map (c.primEnc s.key) := by
  simp only [cipherBlocks, hm]

/-- R110 in ECB, whatever the masks: the slot ends as that of a state whose masks have block size. -/
theorem encRule_ecb_buf (hm : s.mode = .ecb) (hf : c.fits (s.len rd + padLen c.BS (s.len rd)) = true) (w : CmdWord) :
    (encRule c w rd s).buf rd = ((chunks c (withPadding c.BS (s.buf rd))).map (c.primEnc s.key)).flatten := by
  have mode : s.mode ≠ .none := by simp [hm]
  have masks : (s.withMasks (zeros c.BS) (zeros c.BS)).curMask.length = c.BS :=
    State.curMask_length (zeros_length _) (zeros_length _)
  have blocks := encRule_buf (rd := rd) (s := s.withMasks (zeros c.BS) (zeros c.BS)) mode masks hf w
  rw [encRule_ecb_withMasks hm hf, cipherBlocks_ecb (s := s.withMasks (zeros c.BS) (zeros c.BS)) hm] at blocks
  exact blocks

/-! ## The chunks of a list of blocks -/

theorem chunk_flatten {bs : List Bytes} (hbs : ∀ b ∈ bs, b.length = c.BS) {k : Nat} {b : Bytes} (hk : bs[k]? = some b) :
    chunk c bs.flatten k = b := by
  induction bs generalizing k with
  | nil => simp at hk
  | cons first rest ih =>
    have length : first.length = c.BS := hbs first List.mem_cons_self
    cases k with
    | zero =>
      obtain rfl : first = b := by simpa using hk
      rw [chunk, Nat.zero_mul, List.drop_zero, List.flatten_cons, List.take_left' length]
    | succ k =>
      rw [chunk, Nat.add_mul, Nat.one_mul, Nat.add_comm, ← List.drop_drop, List.flatten_cons, List.drop_left' length]
      exact ih (fun b hb => hbs b (List.mem_cons_of_mem _ hb)) (by simpa using hk)

/-- The padding of a buffer adds one to its whole chunks. -/
theorem chunks_withPadding_getElem? (c : Config) {b : Bytes} {k : Nat} (hk : k ≤ b.length / c.BS) :
    (chunks c (withPadding c.BS b))[k]? = some (chunk c (withPadding c.BS b) k) := by
  have length : (withPadding c.BS b).length / c.BS = b.length / c.BS + 1 := by
    rw [← padded_eq_withPadding, padded_length, add_padLen c.BS_pos, Nat.mul_div_cancel _ c.BS_pos]
  rw [chunks, length, List.getElem?_map, List.getElem?_range (by omega), Option.map_some]

/-- "the machine with no state" (R99): each chunk of the padded buffer is encrypted for itself. -/
theorem chunk_encRule_ecb (hm : s.mode = .ecb) (hf : c.fits (s.len rd + padLen c.BS (s.len rd)) = true) (w : CmdWord) {k : Nat}
    (hk : k ≤ s.len rd / c.BS) :
    chunk c ((encRule c w rd s).buf rd) k = c.primEnc s.key (chunk c (withPadding c.BS (s.buf rd)) k) := by
  rw [encRule_ecb_buf hm hf]
  refine chunk_flatten (fun b hb => ?_) ?_
  · obtain ⟨plain, -, rfl⟩ := List.mem_map.1 hb
    exact c.primEnc_length ..
  · rw [List.getElem?_map, chunks_withPadding_getElem? c hk, Option.map_some]

end Sys2Proof.Machine
end

section
/-! ECBNEW, CBCNEW, BLKSZ, ENCB and DECB, and what ECB shows (42_ciphermode_block.md). -/

namespace Sys2Proof.Proofs

open Sys2Proof.Machine

/-- Settles O26. -/
theorem ecbnewFollowsItsRule : Obligations.EcbnewFollowsItsRule := by
  intro ra s
  refine ⟨encode_toNat _, _, exec_eq_commandRule _ s, ?_⟩
  rcases ecbnewRule_cases Config.impl (encode (.ecbnew ra)) ra s with ⟨bad, e⟩ | ⟨key, e⟩ <;> rw [commandRule, e]
  · rw [if_pos bad]
    exact raise_onlyRaised .keyLength _ s
  · rw [if_neg (not_not_intro key)]
    exact ⟨rfl, rfl, rfl, rfl, rfl, fun _ => ⟨rfl, fun _ => rfl⟩, ⟨rfl, rfl, rfl⟩, rfl, rfl⟩

/-- Settles O27. -/
theorem cbcnewFollowsItsRule : Obligations.CbcnewFollowsItsRule := by
  intro ra rb s
  refine ⟨encode_toNat _, _, exec_eq_commandRule _ s, ?_⟩
  rcases cbcnewRule_cases Config.impl (encode (.cbcnew ra rb)) ra rb s with ⟨bad, e⟩ | ⟨key, bad, e⟩ | ⟨key, iv, e⟩ <;>
    rw [commandRule, e]
  · rw [if_pos bad]
    exact raise_onlyRaised .keyLength _ s
  · rw [if_neg (not_not_intro key), if_pos bad]
    exact raise_onlyRaised .ivLength _ s
  · rw [if_neg (not_not_intro key), if_neg (not_not_intro iv)]
    exact ⟨rfl, rfl, rfl, rfl, rfl, fun _ => ⟨rfl, fun _ => rfl⟩, ⟨rfl, rfl, rfl⟩, rfl, rfl⟩

/-- Settles O28. -/
theorem blkszFollowsItsRule : Obligations.BlkszFollowsItsRule := by
  intro s
  refine ⟨encode_toNat _, _, exec_eq_commandRule _ s, ?_⟩
  rcases blkszRule_cases Config.impl (encode .blksz) s with ⟨none, e⟩ | ⟨mode, e⟩ <;> rw [commandRule, e]
  · rw [if_pos none]
    exact raise_onlyRaised .noMode _ s
  · rw [if_neg mode]
    exact ⟨rfl, fun _ => ⟨rfl, fun _ => rfl⟩, ⟨rfl, rfl, rfl, rfl, rfl⟩, ⟨rfl, rfl, rfl⟩, rfl⟩

/-- Settles O29: the frame is that of the block step in either mode; ECB writes the slot alone, CBC the current mask too. -/
theorem encbFollowsItsRule : Obligations.EncbFollowsItsRule := by
  intro rd s mask0 mask1
  refine ⟨encode_toNat _, _, exec_eq_commandRule _ s, ?_⟩
  rcases encbRule_cases Config.impl (encode (.encb rd)) rd s with ⟨none, e⟩ | ⟨mode, bad, e⟩ | ⟨mode, block, e⟩ <;>
    rw [commandRule, e]
  · rw [if_pos none]
    exact raise_onlyRaised .noMode _ s
  · rw [if_neg mode, if_pos bad]
    exact raise_onlyRaised .blockLength _ s
  obtain ⟨hmode, hkey, hmaskI, -, hfaulted, herr, hfcmd, hres, hhost, hslots⟩ := encBlock_frame Config.impl rd 0 s
  rw [if_neg mode, if_neg (not_not_intro block)]
  refine ⟨encBlock_len (by omega) rd, sameSlotsBut_of_buf hslots, ⟨hfaulted, herr, hfcmd⟩, hres, hhost, ?_⟩
  by_cases ecb : s.mode = .ecb
  · rw [if_pos ecb, encBlock_ecb_whole ecb block]
    exact ⟨State.buf_setBuf_same .., rfl, rfl, rfl, rfl, rfl⟩
  · rw [if_neg ecb]
    obtain ⟨hbuf, hcur, hother⟩ :=
      encBlock_cbc_whole (Mode.eq_cbc mode ecb) (State.curMask_length mask0 mask1) block
    exact ⟨hbuf, hmode, hkey, hmaskI, hcur, hother⟩

/-- Settles O30: the frame is that of the block step in either mode; ECB writes the slot alone, CBC the next mask and `MASK_I`
too. -/
theorem decbFollowsItsRule : Obligations.DecbFollowsItsRule := by
  intro rd s mask0 mask1
  refine ⟨encode_toNat _, _, exec_eq_commandRule _ s, ?_⟩
  rcases decbRule_cases Config.impl (encode (.decb rd)) rd s with ⟨none, e⟩ | ⟨mode, bad, e⟩ | ⟨mode, block, e⟩ <;>
    rw [commandRule, e]
  · rw [if_pos none]
    exact raise_onlyRaised .noMode _ s
  · rw [if_neg mode, if_pos bad]
    exact raise_onlyRaised .blockLength _ s
  obtain ⟨hmode, hkey, hfaulted, herr, hfcmd, hres, hhost, hslots⟩ := decBlock_frame Config.impl rd 0 s
  rw [if_neg mode, if_neg (not_not_intro block)]
  refine ⟨decBlock_len (by omega) rd, sameSlotsBut_of_buf hslots, ⟨hfaulted, herr, hfcmd⟩, hres, hhost, ?_⟩
  by_cases ecb : s.mode = .ecb
  · rw [if_pos ecb, decBlock_ecb_whole ecb block]
    exact ⟨State.buf_setBuf_same .., rfl, rfl, rfl, rfl, rfl⟩
  · rw [if_neg ecb]
    obtain ⟨hbuf, hmaskI, hnext, hcur⟩ :=
      decBlock_cbc_whole (Mode.eq_cbc mode ecb) (State.curMask_length mask0 mask1) block
    exact ⟨hbuf, hmode, hkey, hmaskI, hnext, hcur⟩

/-- Settles O51: the first ENCB changes neither the other slot nor the key. -/
theorem ecbEncryptsEqualBlocksEqually : Obligations.EcbEncryptsEqualBlocksEqually := by
  intro a b s hne ecb block same
  have other : (s.setBuf a (Config.impl.primEnc s.key (s.buf a))).buf b = s.buf a :=
    (s.buf_setBuf_other _ hne.symm).trans same.symm
  have block' : (s.setBuf a (Config.impl.primEnc s.key (s.buf a))).len b = Config.impl.BS :=
    (congrArg List.length other).trans block
  refine ⟨_, _, exec_encb_ecb ecb block, exec_encb_ecb ecb block', ?_⟩
  rw [State.buf_setBuf_other _ _ hne, State.buf_setBuf_same, State.buf_setBuf_same, other]
  exact ⟨rfl, rfl⟩

/-- Settles O52. -/
theorem ecbShowsEqualChunks : Obligations.EcbShowsEqualChunks := by
  intro c w rd s j k ecb fits hj hk same
  rw [chunk_encRule_ecb ecb fits w hj, chunk_encRule_ecb ecb fits w hk, same]
  exact ⟨rfl, c.primEnc_length ..⟩

end Sys2Proof.Proofs
end

section
/-! SUPPORT. The chaining modes as inverses of each other, and a buffer as its list of blocks (42_ciphermode_block.md R99,
43_ciphermode_buffer.md R113, R114). -/

namespace Sys2Proof.Machine

variable {c : Config} {n : Nat} {key cur cur' : Bytes}

/-! ## Bytewise XOR of blocks (R99) -/

theorem xorBlock_length {a b : Bytes} (ha : a.length = n) (hb : b.length = n) : (xorBlock a b).length = n := by
  simp [xorBlock, ha, hb]

/-- A byte XORed with two others is unchanged exactly if the two are equal. -/
theorem xor_xor_eq_self_iff (x y z : Byte) : x ^^^ y ^^^ z = x ↔ z = y := by
  rw [BitVec.xor_assoc]
  constructor <;> intro h
  · have zero := congrArg (x ^^^ ·) h
    simp only [← BitVec.xor_assoc, BitVec.xor_self, BitVec.zero_xor] at zero
    exact (BitVec.xor_eq_zero_iff.1 zero).symm
  · rw [h, BitVec.xor_self, BitVec.xor_zero]

/-- The same of blocks of one length. -/
theorem xorBlock_xorBlock_eq_self_iff {p a b : Bytes} (ha : a.length = p.length) (hb : b.length = p.length) :
    xorBlock (xorBlock p a) b = p ↔ b = a := by
  induction p generalizing a b with
  | nil => simp [xorBlock, List.length_eq_zero_iff.1 ha, List.length_eq_zero_iff.1 hb]
  | cons x p ih =>
    obtain ⟨y, a, rfl⟩ := List.exists_cons_of_length_eq_add_one ha
    obtain ⟨z, b, rfl⟩ := List.exists_cons_of_length_eq_add_one hb
    have tail := ih (Nat.succ.inj ha) (Nat.succ.inj hb)
    simp only [xorBlock, List.zipWith_cons_cons, List.cons.injEq] at tail ⊢
    rw [xor_xor_eq_self_iff, tail]

/-! ## Decryption of what encryption has made, under `PrimInverse` (R6) -/

/-- CBC decryption that starts from another mask than the encryption goes wrong in the first block alone (R114). -/
theorem cbcPlain_cbcCipher_cons (hinv : c.PrimInverse) (hkey : key.length = c.KL) (hcur : cur.length = c.BS) {b : Bytes}
    {bs : List Bytes} (hb : b.length = c.BS) (hbs : ∀ x ∈ bs, x.length = c.BS) :
    cbcPlain c key cur' (cbcCipher c key cur (b :: bs)) = xorBlock (xorBlock b cur) cur' :: bs := by
  induction bs generalizing b cur cur' with
  | nil => simp only [cbcCipher, cbcPlain, hinv key _ hkey (xorBlock_length hb hcur)]
  | cons next rest ih =>
    obtain ⟨hnext, hrest⟩ := List.forall_mem_cons.1 hbs
    have out : (c.primEnc key (xorBlock b cur)).length = c.BS := c.primEnc_length ..
    have self := (xorBlock_xorBlock_eq_self_iff (out.trans hnext.symm) (out.trans hnext.symm)).2 rfl
    rw [cbcCipher, cbcPlain, hinv key _ hkey (xorBlock_length hb hcur), ih out hnext hrest, self]

/-- ECB decryption restores every block (R113). -/
theorem map_primDec_primEnc (hinv : c.PrimInverse) (hkey : key.length = c.KL) {bs : List Bytes}
    (hbs : ∀ x ∈ bs, x.length = c.BS) : (bs.map (c.primEnc key)).map (c.primDec key) = bs := by
  rw [List.map_map]
  exact (List.map_congr_left fun x hx => hinv key x hkey (hbs x hx)).trans (List.map_id _)

/-! ## A buffer of whole blocks and its list of blocks -/

theorem chunks_length {b : Bytes} (h : b.length = n * c.BS) : (chunks c b).length = n := by
  rw [chunks, List.length_map, List.length_range, h, Nat.mul_div_cancel _ c.BS_pos]

/-- The first block of a buffer of `n + 1`, and the others. -/
theorem chunks_cons {b : Bytes} (h : b.length = (n + 1) * c.BS) : chunks c b = chunk c b 0 :: chunks c (b.drop c.BS) := by
  have rest : (b.drop c.BS).length = n * c.BS := by rw [List.length_drop, h, Nat.add_mul, Nat.one_mul, Nat.add_sub_cancel]
  have shift : chunk c b ∘ Nat.succ = chunk c (b.drop c.BS) := by
    funext k
    rw [Function.comp_apply, chunk, chunk, List.drop_drop, Nat.succ_mul, Nat.add_comm]
  rw [chunks_eq_firstChunks h.symm, chunks_eq_firstChunks rest.symm, firstChunks, List.range_succ_eq_map, List.map_cons,
    List.map_map, shift, firstChunks]

theorem length_of_mem_chunks {b x : Bytes} (hx : x ∈ chunks c b) : x.length = c.BS :=
  length_of_mem_firstChunks (Nat.div_mul_le_self ..) hx

theorem chunks_getElem? {b : Bytes} {k : Nat} (h : b.length = n * c.BS) (hk : k < n) :
    (chunks c b)[k]? = some (chunk c b k) := by
  rw [chunks, h, Nat.mul_div_cancel _ c.BS_pos, List.getElem?_map, List.getElem?_range hk, Option.map_some]

theorem flatten_length {bs : List Bytes} (hbs : ∀ x ∈ bs, x.length = c.BS) : bs.flatten.length = bs.length * c.BS := by
  induction bs with
  | nil => simp
  | cons first rest ih =>
    obtain ⟨hfirst, hrest⟩ := List.forall_mem_cons.1 hbs
    rw [List.flatten_cons, List.length_append, hfirst, ih hrest, List.length_cons, Nat.add_mul, Nat.one_mul, Nat.add_comm]

theorem flatten_firstChunks (c : Config) (b : Bytes) (n : Nat) : (firstChunks c b n).flatten = b.take (n * c.BS) := by
  induction n with
  | zero => simp [firstChunks]
  | succ n ih =>
    rw [firstChunks_succ, List.flatten_append, ih, List.flatten_singleton, chunk, Nat.add_mul, Nat.one_mul, List.take_add]

/-- A buffer of whole blocks is its blocks in order. -/
theorem flatten_chunks {b : Bytes} (h : b.length = n * c.BS) : (chunks c b).flatten = b := by
  rw [chunks_eq_firstChunks h.symm, flatten_firstChunks, ← h, List.take_length]

/-- A list of blocks is read back from the buffer they make. -/
theorem chunks_flatten {bs : List Bytes} (hbs : ∀ x ∈ bs, x.length = c.BS) : chunks c bs.flatten = bs := by
  have length := flatten_length hbs
  refine List.ext_getElem (chunks_length length) fun k _ hk => Option.some.inj ?_
  rw [← List.getElem?_eq_getElem, ← List.getElem?_eq_getElem, chunks_getElem? length hk,
    chunk_flatten hbs (List.getElem?_eq_getElem hk), List.getElem?_eq_getElem hk]

/-- The last block of a buffer of `n + 1`. -/
theorem getLastD_eq_chunk {bs : List Bytes} (hbs : ∀ x ∈ bs, x.length = c.BS) (h : bs.length = n + 1) (cur : Bytes) :
    bs.getLastD cur = chunk c bs.flatten n := by
  have last : bs[n]? = some (bs.getLastD cur) := by
    rw [List.getLastD_eq_getLast?, List.getLast?_eq_getElem?, h, Nat.add_sub_cancel, List.getElem?_eq_getElem (by omega)]
    rfl
  exact (chunk_flatten hbs last).symm

theorem cbcCipher_length (c : Config) (key cur : Bytes) (bs : List Bytes) : (cbcCipher c key cur bs).length = bs.length := by
  induction bs generalizing cur with
  | nil => rfl
  | cons b bs ih => rw [cbcCipher, List.length_cons, ih, List.length_cons]

/-! ## The blocks of the padded buffer (R80, R110) -/

theorem withPadding_length (c : Config) (b : Bytes) : (withPadding c.BS b).length = (b.length / c.BS + 1) * c.BS :=
  (padded_length ..).trans (add_padLen c.BS_pos _)

/-- A positive number of blocks is what DEC accepts (R111). -/
theorem mod_eq_zero_and_ne_zero {m : Nat} (h : m = (n + 1) * c.BS) : m % c.BS = 0 ∧ m ≠ 0 := by
  subst h
  exact ⟨Nat.mul_mod_left .., Nat.mul_ne_zero n.succ_ne_zero (Nat.one_le_iff_ne_zero.1 c.BS_pos)⟩

theorem length_chunk_zero_withPadding (c : Config) (b : Bytes) : (chunk c (withPadding c.BS b) 0).length = c.BS :=
  chunk_length (by
    rw [withPadding_length]
    exact Nat.mul_le_mul_right _ (Nat.succ_le_succ (Nat.zero_le _)))

theorem chunk_zero (c : Config) (b : Bytes) : chunk c b 0 = b.take c.BS := by
  rw [chunk, Nat.zero_mul, List.drop_zero]

/-- A buffer of at least one block keeps its first block under padding. -/
theorem chunk_zero_withPadding {b : Bytes} (h : c.BS ≤ b.length) : chunk c (withPadding c.BS b) 0 = chunk c b 0 := by
  rw [chunk_zero, chunk_zero, withPadding, List.take_append_of_le_length h]

/-- A buffer shorter than one block is padded to one block (R82). -/
theorem chunk_zero_withPadding_of_lt {b : Bytes} (h : b.length < c.BS) :
    chunk c (withPadding c.BS b) 0 = withPadding c.BS b := by
  rw [chunk_zero, List.take_of_length_le]
  rw [withPadding_length, Nat.div_eq_of_lt h, Nat.zero_add, Nat.one_mul]

/-- A content that differs from the padded buffer in its first block alone ends with the same byte. -/
theorem getLast?_append_drop_withPadding (x : Bytes) {b : Bytes} (h : c.BS ≤ b.length) :
    (x ++ (withPadding c.BS b).drop c.BS).getLast? = (withPadding c.BS b).getLast? := by
  have grows := (padLen_bounds c.BS_pos b.length).1
  have length : (withPadding c.BS b).length = b.length + padLen c.BS b.length := padded_length ..
  rw [List.getLast?_append, List.getLast?_drop, if_neg (by omega), ← padded_eq_withPadding, padded_getLast? c.BS_pos,
    Option.some_or]

/-- The same content without the padding. -/
theorem take_append_drop_withPadding {x b : Bytes} (hx : x.length = c.BS) (h : c.BS ≤ b.length) :
    (x ++ (withPadding c.BS b).drop c.BS).take b.length = x ++ b.drop c.BS := by
  rw [List.take_append, List.take_of_length_le (by omega), hx, ← List.drop_take, ← padded_eq_withPadding, padded_take]

end Sys2Proof.Machine
end

section
/-! SUPPORT. What ENC and DEC leave where their tests pass, for any configuration and word (43_ciphermode_buffer.md R110,
R111): the slot, the masks and the frame. -/

namespace Sys2Proof.Machine

variable {c : Config} {s t : State} {rd sl : Slot} {n : Nat}

/-! ## The chunk loops as folds -/

theorem encChunks_eq_foldl (c : Config) (sl : Slot) (n : Nat) (s : State) :
    encChunks c sl n s = (List.range n).foldl (fun s k => encBlock c sl (chunkOffset c k) s) s := by
  induction n with
  | zero => rfl
  | succ n ih => rw [encChunks, ih, List.range_succ, List.foldl_append, List.foldl_cons, List.foldl_nil]

theorem decChunks_eq_foldl (c : Config) (sl : Slot) (n : Nat) (s : State) :
    decChunks c sl n s = (List.range n).foldl (fun s k => decBlock c sl (chunkOffset c k) s) s := by
  induction n with
  | zero => rfl
  | succ n ih => rw [decChunks, ih, List.range_succ, List.foldl_append, List.foldl_cons, List.foldl_nil]

/-! ## ECB: the slot is written and nothing else (R94, R97) -/

/-- Steps that write one slot while `MODE` is ECB write it together. -/
theorem foldl_eq_setBuf {f : State → Nat → State} (hf : ∀ s k, s.mode = .ecb → ∃ v, f s k = s.setBuf sl v)
    (hm : s.mode = .ecb) (ks : List Nat) : ks.foldl f s = s.setBuf sl ((ks.foldl f s).buf sl) := by
  induction ks generalizing s with
  | nil => exact (s.setBuf_buf sl).symm
  | cons k ks ih =>
    obtain ⟨v, hv⟩ := hf s k hm
    have rest := ih (s := s.setBuf sl v) hm
    rw [State.setBuf_setBuf] at rest
    rwa [List.foldl_cons, hv]

theorem encChunks_ecb_eq_setBuf (hm : s.mode = .ecb) (c : Config) (sl : Slot) (n : Nat) :
    encChunks c sl n s = s.setBuf sl ((encChunks c sl n s).buf sl) := by
  rw [encChunks_eq_foldl]
  exact foldl_eq_setBuf (fun _ _ ecb => ⟨_, encBlock_ecb ecb ..⟩) hm _

theorem decChunks_ecb_eq_setBuf (hm : s.mode = .ecb) (c : Config) (sl : Slot) (n : Nat) :
    decChunks c sl n s = s.setBuf sl ((decChunks c sl n s).buf sl) := by
  rw [decChunks_eq_foldl]
  exact foldl_eq_setBuf (fun _ _ ecb => ⟨_, decBlock_ecb ecb ..⟩) hm _

theorem State.setBuf_sameContext (s : State) (sl : Slot) (v : Bytes) : SameContext s (s.setBuf sl v) :=
  ⟨rfl, rfl, rfl, rfl, rfl⟩

/-- R110 in ECB, whatever the masks. -/
theorem encRule_ecb (hm : s.mode = .ecb) (hf : c.fits (s.len rd + padLen c.BS (s.len rd)) = true) (w : CmdWord) :
    encRule c w rd s = s.setBuf rd ((chunks c (withPadding c.BS (s.buf rd))).map (c.primEnc s.key)).flatten := by
  have mode : s.mode ≠ .none := by simp [hm]
  rw [← encRule_ecb_buf hm hf w, encRule_of_fits mode hf, encChunks_ecb_eq_setBuf (s := s.setBuf rd _) hm,
    State.setBuf_setBuf, State.buf_setBuf_same]

theorem decBlock_ecb_withMasks (hm : s.mode = .ecb) (c : Config) (sl : Slot) (off : Nat) (m0 m1 : Bytes) :
    decBlock c sl off (s.withMasks m0 m1) = (decBlock c sl off s).withMasks m0 m1 := by
  rw [decBlock_ecb hm, decBlock_ecb (s := s.withMasks m0 m1) hm]
  rfl

/-- In ECB the loop neither reads nor writes a mask (R97). -/
theorem decChunks_ecb_withMasks (hm : s.mode = .ecb) (c : Config) (sl : Slot) (n : Nat) (m0 m1 : Bytes) :
    decChunks c sl n (s.withMasks m0 m1) = (decChunks c sl n s).withMasks m0 m1 := by
  induction n with
  | zero => rfl
  | succ n ih =>
    have mode : (decChunks c sl n s).mode = .ecb := (decChunks_frame c sl n s).1.trans hm
    rw [decChunks, decChunks, ih, decBlock_ecb_withMasks mode]

theorem plainBlocks_ecb (hm : s.mode = .ecb) (c : Config) (bs : List Bytes) :
    plainBlocks c s bs = bs.map (c.primDec s.key) := by
  simp only [plainBlocks, hm]

/-- The loop of R111 in ECB, whatever the masks. -/
theorem decChunks_ecb (hm : s.mode = .ecb) (h : n * c.BS = s.len sl) :
    decChunks c sl n s = s.setBuf sl ((chunks c (s.buf sl)).map (c.primDec s.key)).flatten := by
  have masks : (s.withMasks (zeros c.BS) (zeros c.BS)).curMask.length = c.BS :=
    State.curMask_length (zeros_length _) (zeros_length _)
  have blocks := decChunks_buf_of_len (s := s.withMasks (zeros c.BS) (zeros c.BS)) (sl := sl) masks h
  rw [decChunks_ecb_withMasks hm, decrypted, plainBlocks_ecb (s := s.withMasks (zeros _) (zeros _)) hm] at blocks
  exact (decChunks_ecb_eq_setBuf hm c sl n).trans (congrArg _ blocks)

/-! ## ENC (R110) -/

section

variable (hm : s.mode ≠ .none) (hf : c.fits (s.len rd + padLen c.BS (s.len rd)) = true) (w : CmdWord)
include hm hf

theorem encRule_len : (encRule c w rd s).len rd = (s.len rd / c.BS + 1) * c.BS := by
  rw [encRule_of_fits hm hf, encChunks_len (len_setBuf_padded c rd s).ge, len_setBuf_padded]

/-- What ENC never changes where its tests pass. -/
theorem encRule_frame :
    (encRule c w rd s).mode = s.mode ∧ (encRule c w rd s).key = s.key ∧ (encRule c w rd s).maskI = s.maskI ∧
    (encRule c w rd s).nextMask = s.nextMask ∧ SameStatus s (encRule c w rd s) ∧ (encRule c w rd s).res = s.res ∧
    (encRule c w rd s).host = s.host ∧ ∀ sl, sl ≠ rd → (encRule c w rd s).buf sl = s.buf sl := by
  rw [encRule_of_fits hm hf]
  obtain ⟨hmode, hkey, hmaskI, hnext, hfaulted, herr, hfcmd, hres, hhost, hslots⟩ :=
    encChunks_frame c rd (s.len rd / c.BS + 1) (s.setBuf rd (padded c.BS (s.buf rd)))
  exact ⟨hmode, hkey, hmaskI, hnext, ⟨hfaulted, herr, hfcmd⟩, hres, hhost,
    fun sl hne => (hslots sl hne).trans (s.buf_setBuf_other _ hne)⟩

end

theorem cipherBlocks_cbc (hm : s.mode = .cbc) (c : Config) (bs : List Bytes) :
    cipherBlocks c s bs = cbcCipher c s.key s.curMask bs := by
  simp only [cipherBlocks, hm]

theorem plainBlocks_cbc (hm : s.mode = .cbc) (c : Config) (bs : List Bytes) :
    plainBlocks c s bs = cbcPlain c s.key s.curMask bs := by
  simp only [plainBlocks, hm]

/-- "In CBC the current mask ends as the last ciphertext block" (R110). -/
theorem encRule_cbc_curMask (hm : s.mode = .cbc) (hmask : s.curMask.length = c.BS)
    (hf : c.fits (s.len rd + padLen c.BS (s.len rd)) = true) (w : CmdWord) :
    (encRule c w rd s).curMask = chunk c ((encRule c w rd s).buf rd) (s.len rd / c.BS) := by
  have mode : s.mode ≠ .none := by simp [hm]
  have number := (cbcCipher_length c s.key s.curMask _).trans (chunks_length (withPadding_length c (s.buf rd)))
  have mask := (encChunks_eq_cipherBlocks (s := s.setBuf rd (padded c.BS (s.buf rd))) hmask (len_setBuf_padded c rd s).ge).2
  have blocks : firstChunks c (padded c.BS (s.buf rd)) (s.len rd / c.BS + 1) = chunks c (withPadding c.BS (s.buf rd)) :=
    (chunks_eq_firstChunks (withPadding_length c (s.buf rd)).symm).symm
  rw [State.buf_setBuf_same, blocks, ← encRule_of_fits mode hf w] at mask
  rw [mask, encRule_buf mode hmask hf, cipherBlocks_cbc hm, cipherMask, State.setBuf_mode, hm]
  exact getLastD_eq_chunk (fun _ => length_of_mem_cbcCipher) number _

/-! ## DEC (R111) -/

theorem otherMask_eq_add_one (i : BitVec 1) : otherMask i = i + 1 := by
  revert i
  decide

/-- "`MASK_I` toggles once per chunk" (R111). -/
theorem decChunks_cbc_maskI (hm : s.mode = .cbc) (c : Config) (sl : Slot) (n : Nat) :
    (decChunks c sl n s).maskI = s.maskI + BitVec.ofNat 1 n := by
  induction n with
  | zero => exact (BitVec.add_zero _).symm
  | succ n ih =>
    have mode : (decChunks c sl n s).mode = .cbc := (decChunks_frame c sl n s).1.trans hm
    rw [decChunks, decBlock_cbc mode]
    change otherMask (decChunks c sl n s).maskI = _
    rw [otherMask_eq_add_one, ih, BitVec.ofNat_add, BitVec.add_assoc]
    rfl

/-- The roles of the masks are swapped: the mask the block was decrypted with is the next one (R98). -/
theorem decBlock_cbc_nextMask (hm : s.mode = .cbc) (c : Config) (sl : Slot) (off : Nat) :
    (decBlock c sl off s).nextMask = s.curMask := by
  rw [decBlock_cbc hm]
  change (s.setMask (otherMask s.maskI) _).mask (otherMask (otherMask s.maskI)) = _
  rw [otherMask_otherMask]
  exact State.mask_setMask_other _ _ (otherMask_ne _).symm

theorem plainMask_cbc_firstChunks_succ (hm : s.mode = .cbc) (c : Config) (b : Bytes) (n : Nat) :
    plainMask s (firstChunks c b (n + 1)) = chunk c b n := by
  rw [plainMask, hm, firstChunks_succ, getLastD_append]
  rfl

/-- The two masks after the loop, "corner case (f)" of R111. -/
theorem decChunks_cbc_masks (hm : s.mode = .cbc) (hmask : s.curMask.length = c.BS) (h : n * c.BS ≤ s.len sl) (hn : n ≠ 0) :
    (decChunks c sl n s).curMask = chunk c (s.buf sl) (n - 1) ∧
      (decChunks c sl n s).nextMask = if n = 1 then s.curMask else chunk c (s.buf sl) (n - 2) := by
  obtain ⟨n, rfl⟩ := Nat.exists_eq_succ_of_ne_zero hn
  have mode : (decChunks c sl n s).mode = .cbc := (decChunks_frame c sl n s).1.trans hm
  refine ⟨(decChunks_eq_plainBlocks hmask h).2.trans (plainMask_cbc_firstChunks_succ hm ..), ?_⟩
  rw [decChunks, decBlock_cbc_nextMask mode,
    (decChunks_eq_plainBlocks hmask ((Nat.mul_le_mul_right _ n.le_succ).trans h)).2]
  cases n with
  | zero => simp only [plainMask, hm, firstChunks, List.range_zero, List.map_nil, List.getLastD_nil, if_true]
  | succ m => exact plainMask_cbc_firstChunks_succ hm ..

theorem SameContext.masks (h : SameContext s t) : t.curMask = s.curMask ∧ t.nextMask = s.nextMask := by
  obtain ⟨-, -, hmask0, hmask1, hmaskI⟩ := h
  simp only [State.curMask, State.nextMask, State.mask, hmask0, hmask1, hmaskI, and_self]

/-- The unpad changes no context register, nor RES, nor the host (R81). -/
theorem cutPadding_frame (w : CmdWord) (rd : Slot) (s : State) :
    SameContext s (cutPadding w rd s) ∧ SameSlotsBut rd s (cutPadding w rd s) ∧ (cutPadding w rd s).res = s.res ∧
      (cutPadding w rd s).host = s.host := by
  rcases cutPadding_cases w rd s with ⟨-, e⟩ | ⟨n, -, -, e⟩ | ⟨n, -, -, e⟩ <;> rw [e]
  · obtain ⟨-, -, -, slots, context, res, host⟩ := raise_onlyRaised .emptyBuffer w s
    exact ⟨context, fun sl _ => slots sl, res, host⟩
  · obtain ⟨-, -, -, slots, context, res, host⟩ := raise_onlyRaised .padUnderflow w s
    exact ⟨context, fun sl _ => slots sl, res, host⟩
  · obtain ⟨slots, context, -, res, host⟩ := s.setBuf_onlySlot rd ((s.buf rd).take (s.len rd - n.toNat))
    exact ⟨context, slots, res, host⟩

theorem SameSlotsBut.trans {u : State} (h : SameSlotsBut rd s t) (h' : SameSlotsBut rd t u) : SameSlotsBut rd s u :=
  fun sl hne => ⟨(h' sl hne).1.trans (h sl hne).1, fun off => ((h' sl hne).2 off).trans ((h sl hne).2 off)⟩

theorem SameStatus.trans {u : State} (h : SameStatus s t) (h' : SameStatus t u) : SameStatus s u :=
  ⟨h'.1.trans h.1, h'.2.1.trans h.2.1, h'.2.2.trans h.2.2⟩

/-- What DEC makes of slot and status: the decrypted chunks cut by their last byte, or uncut with `PadUnderflow` (R111). -/
def DecOutcome (w : CmdWord) (rd : Slot) (x : Bytes) (s t : State) : Prop :=
  if (x.getLastD 0).toNat > s.len rd then t.buf rd = x ∧ t.faulted = true ∧ t.err = 6 ∧ t.fcmd = w
  else t.buf rd = x.take (s.len rd - (x.getLastD 0).toNat) ∧ SameStatus s t

section

variable (hm : s.mode ≠ .none) (hmask : s.curMask.length = c.BS) (ha : s.len rd % c.BS = 0) (hne : s.len rd ≠ 0)
  (w : CmdWord)
include hm hmask ha hne

theorem decRule_outcome : DecOutcome w rd (decrypted c s rd) s (decRule c w rd s) := by
  have length := decrypted_length hmask ha
  have nonempty : decrypted c s rd ≠ [] := List.ne_nil_of_length_pos (by omega)
  have content := decChunks_buf_div hmask ha
  have len : (decChunks c rd (s.len rd / c.BS) s).len rd = s.len rd := decChunks_len (Nat.div_mul_le_self ..) rd
  have last := (congrArg _ content).trans (getLast?_eq_getLastD nonempty)
  obtain ⟨-, -, hfaulted, herr, hfcmd, -⟩ := decChunks_frame c rd (s.len rd / c.BS) s
  unfold DecOutcome
  split
  · next above =>
    rw [decRule_of_chunks hm ha hne, cutPadding_of_getLast?_above last (by omega)]
    exact ⟨content, rfl, rfl, rfl⟩
  · next fits =>
    refine ⟨decRule_buf hm hmask ha hne (Nat.not_lt.1 fits) w, ?_⟩
    rw [decRule_of_chunks hm ha hne, cutPadding_of_getLast? last (by omega)]
    exact ⟨hfaulted, herr, hfcmd⟩

omit hmask in
/-- What DEC never changes, and its context, which is that of the loop. -/
theorem decRule_frame :
    SameContext (decChunks c rd (s.len rd / c.BS) s) (decRule c w rd s) ∧ SameSlotsBut rd s (decRule c w rd s) ∧
      (decRule c w rd s).res = s.res ∧ (decRule c w rd s).host = s.host := by
  rw [decRule_of_chunks hm ha hne]
  obtain ⟨-, -, -, -, -, hres, hhost, hslots⟩ := decChunks_frame c rd (s.len rd / c.BS) s
  obtain ⟨context, slots, res, host⟩ := cutPadding_frame w rd (decChunks c rd (s.len rd / c.BS) s)
  exact ⟨context, (sameSlotsBut_of_buf hslots).trans slots, res.trans hres, host.trans hhost⟩

end

/-- The context that DEC leaves in CBC (R111). -/
theorem decRule_cbc_context (hm : s.mode = .cbc) (hmask : s.curMask.length = c.BS) (ha : s.len rd % c.BS = 0)
    (hne : s.len rd ≠ 0) (w : CmdWord) :
    (decRule c w rd s).mode = s.mode ∧ (decRule c w rd s).key = s.key ∧
      (decRule c w rd s).maskI = s.maskI + BitVec.ofNat 1 (s.len rd / c.BS) ∧
      (decRule c w rd s).curMask = chunk c (s.buf rd) (s.len rd / c.BS - 1) ∧
      (decRule c w rd s).nextMask =
        if s.len rd / c.BS = 1 then s.curMask else chunk c (s.buf rd) (s.len rd / c.BS - 2) := by
  have mode : s.mode ≠ .none := by simp [hm]
  have whole : s.len rd / c.BS * c.BS = s.len rd := Nat.div_mul_cancel (Nat.dvd_of_mod_eq_zero ha)
  have number : s.len rd / c.BS ≠ 0 := fun zero => hne (by rw [← whole, zero, Nat.zero_mul])
  obtain ⟨context, -⟩ := decRule_frame mode ha hne w
  obtain ⟨hmode, hkey, -⟩ := decChunks_frame c rd (s.len rd / c.BS) s
  obtain ⟨cur, next⟩ := decChunks_cbc_masks hm hmask whole.le number
  obtain ⟨hcur, hnext⟩ := context.masks
  obtain ⟨cmode, ckey, -, -, cmaskI⟩ := context
  exact ⟨cmode.trans hmode, ckey.trans hkey, cmaskI.trans (decChunks_cbc_maskI hm ..), hcur.trans cur, hnext.trans next⟩

/-- In ECB the context stays (R111). -/
theorem decRule_ecb_context (hm : s.mode = .ecb) (ha : s.len rd % c.BS = 0) (hne : s.len rd ≠ 0) (w : CmdWord) :
    SameContext s (decRule c w rd s) := by
  have mode : s.mode ≠ .none := by simp [hm]
  obtain ⟨context, -⟩ := decRule_frame mode ha hne w
  rwa [decChunks_ecb_eq_setBuf hm] at context

end Sys2Proof.Machine
end

section
/-! SUPPORT. DEC of what ENC has made, in ECB, and in CBC on a constructed context (43_ciphermode_buffer.md R113, R114). -/

namespace Sys2Proof.Machine

variable {c : Config} {s t u : State} {rd sk sv : Slot} {w : CmdWord}

/-! ## The unpad of decrypted padding -/

/-- DEC cuts the padding from a content that ends as the padded buffer does. -/
theorem DecOutcome.of_padding {b x : Bytes} (h : DecOutcome w rd x s t) (hlen : s.len rd = (withPadding c.BS b).length)
    (hlast : x.getLast? = (withPadding c.BS b).getLast?) : t.buf rd = x.take b.length ∧ SameStatus s t := by
  have value := padLen_byte c.BS_pos c.BS_le b.length
  have length : s.len rd = b.length + padLen c.BS b.length := hlen.trans (padded_length ..)
  have last : x.getLastD 0 = BitVec.ofNat 8 (padLen c.BS b.length) := by
    rw [List.getLastD_eq_getLast?, hlast, ← padded_eq_withPadding, padded_getLast? c.BS_pos, Option.getD_some]
  rw [DecOutcome, last, value, if_neg (by omega), length, Nat.add_sub_cancel] at h
  exact h

/-! ## ECB -/

theorem decRule_encRule_ecb (hinv : c.PrimInverse) (hm : s.mode = .ecb) (hk : s.key.length = c.KL)
    (hf : c.fits (s.len rd + padLen c.BS (s.len rd)) = true) (w w' : CmdWord) : decRule c w' rd (encRule c w rd s) = s := by
  have mode : s.mode ≠ .none := by simp [hm]
  obtain ⟨aligned, nonempty⟩ := mod_eq_zero_and_ne_zero (encRule_len mode hf w)
  have whole := Nat.div_mul_cancel (Nat.dvd_of_mod_eq_zero aligned)
  rw [encRule_ecb hm hf] at aligned nonempty whole ⊢
  rw [decRule_of_chunks (by exact mode) aligned nonempty, decChunks_ecb (by exact hm) whole, State.buf_setBuf_same,
    chunks_flatten (by simp), State.setBuf_key, map_primDec_primEnc hinv hk fun _ => length_of_mem_chunks,
    flatten_chunks (withPadding_length c _), State.setBuf_setBuf]
  exact cutPadding_setBuf_padded c.BS_pos c.BS_le w' rd s

/-! ## CBC -/

/-- `t` is what `s` becomes when a CBC context is constructed from the slots `sk` and `sv` and `rd` is encrypted with it. -/
structure CbcEncrypted (c : Config) (rd sk sv : Slot) (s t : State) : Prop where
  mode : t.mode = .cbc
  key : t.key = s.buf sk
  len : t.len rd = (withPadding c.BS (s.buf rd)).length
  blocks : chunks c (t.buf rd) = cbcCipher c (s.buf sk) (s.buf sv) (chunks c (withPadding c.BS (s.buf rd)))
  curMask : t.curMask = chunk c (t.buf rd) (s.len rd / c.BS)
  status : SameStatus s t
  slots : ∀ sl, sl ≠ rd → t.buf sl = s.buf sl

/-- `CBCNEW` leaves the context of R91 and every slot and the status as they were. -/
theorem cbcnewRule_context (hk : s.len sk = c.KL) (hv : s.len sv = c.BS) (w : CmdWord) :
    (cbcnewRule c w sk sv s).mode = .cbc ∧ (cbcnewRule c w sk sv s).key = s.buf sk ∧
      (cbcnewRule c w sk sv s).curMask = s.buf sv ∧ (∀ sl, (cbcnewRule c w sk sv s).buf sl = s.buf sl) ∧
      SameStatus s (cbcnewRule c w sk sv s) := by
  rw [cbcnewRule_of_key_iv hk hv]
  exact ⟨rfl, rfl, rfl, fun _ => rfl, rfl, rfl, rfl⟩

theorem encRule_cbcnewRule_encrypted (hk : s.len sk = c.KL) (hv : s.len sv = c.BS)
    (hf : c.fits (s.len rd + padLen c.BS (s.len rd)) = true) (w w' : CmdWord) :
    CbcEncrypted c rd sk sv s (encRule c w' rd (cbcnewRule c w sk sv s)) := by
  obtain ⟨cbc, hkey, hcur, hbuf, hstatus⟩ := cbcnewRule_context hk hv w
  generalize cbcnewRule c w sk sv s = s₁ at *
  have hlen : s₁.len rd = s.len rd := congrArg List.length (hbuf rd)
  have mode : s₁.mode ≠ .none := by simp [cbc]
  have mask : s₁.curMask.length = c.BS := (congrArg List.length hcur).trans hv
  have fits : c.fits (s₁.len rd + padLen c.BS (s₁.len rd)) = true := hlen.symm ▸ hf
  obtain ⟨emode, ekey, -, -, estatus, -, -, eslots⟩ := encRule_frame mode fits w'
  refine ⟨emode.trans cbc, ekey.trans hkey, ?_, ?_, ?_, hstatus.trans estatus,
    fun sl hne => (eslots sl hne).trans (hbuf sl)⟩
  · rw [encRule_len mode fits, withPadding_length, hlen, State.len]
  · rw [encRule_buf mode mask fits, cipherBlocks_cbc cbc, chunks_flatten fun _ => length_of_mem_cbcCipher, hkey, hcur, hbuf]
  · rw [encRule_cbc_curMask cbc mask fits, hlen]

namespace CbcEncrypted

variable (h : CbcEncrypted c rd sk sv s t)
include h

theorem len_eq : t.len rd = (s.len rd / c.BS + 1) * c.BS := h.len.trans (withPadding_length ..)

theorem whole : t.len rd % c.BS = 0 ∧ t.len rd ≠ 0 := mod_eq_zero_and_ne_zero h.len_eq

theorem curMask_length : t.curMask.length = c.BS := by
  rw [h.curMask]
  exact chunk_length h.len_eq.ge

/-- Decryption of the ciphertext from any current mask: the mask enters chunk 0 alone (R114). -/
theorem decrypted_eq (hinv : c.PrimInverse) (hk : s.len sk = c.KL) (hv : s.len sv = c.BS) (hmode : u.mode = .cbc)
    (hkey : u.key = s.buf sk) (hbuf : u.buf rd = t.buf rd) :
    decrypted c u rd =
      xorBlock (xorBlock (chunk c (withPadding c.BS (s.buf rd)) 0) (s.buf sv)) u.curMask ++
        (withPadding c.BS (s.buf rd)).drop c.BS := by
  have rest : ((withPadding c.BS (s.buf rd)).drop c.BS).length = (s.buf rd).length / c.BS * c.BS := by
    rw [List.length_drop, withPadding_length, Nat.add_mul, Nat.one_mul, Nat.add_sub_cancel]
  rw [decrypted, plainBlocks_cbc hmode, hbuf, h.blocks, hkey, chunks_cons (withPadding_length ..),
    cbcPlain_cbcCipher_cons hinv hk hv (length_chunk_zero_withPadding ..) fun _ => length_of_mem_chunks,
    List.flatten_cons, flatten_chunks rest]

/-- DEC on any CBC context with the key and the ciphertext: what `decrypted_eq` gives, unpadded. -/
theorem outcome (hinv : c.PrimInverse) (hk : s.len sk = c.KL) (hv : s.len sv = c.BS) (hmode : u.mode = .cbc)
    (hkey : u.key = s.buf sk) (hbuf : u.buf rd = t.buf rd) (hmask : u.curMask.length = c.BS) (w : CmdWord) :
    DecOutcome w rd
      (xorBlock (xorBlock (chunk c (withPadding c.BS (s.buf rd)) 0) (s.buf sv)) u.curMask ++
        (withPadding c.BS (s.buf rd)).drop c.BS) u (decRule c w rd u) := by
  have mode : u.mode ≠ .none := by simp [hmode]
  have len : u.len rd = t.len rd := congrArg List.length hbuf
  obtain ⟨aligned, nonempty⟩ := h.whole
  rw [← h.decrypted_eq hinv hk hv hmode hkey hbuf]
  exact decRule_outcome mode hmask (len ▸ aligned) (len ▸ nonempty) w

end CbcEncrypted

end Sys2Proof.Machine
end

section
/-! SUPPORT. A block step on a chunk moved to another slot and back (43_ciphermode_buffer.md R112). -/

namespace Sys2Proof.Machine

/-! ## Writes of two slots -/

theorem Memory.set_comm (m : Memory) {sl sl' : Slot} (v v' : Bytes) (h : sl' ≠ sl) :
    (m.set sl v).set sl' v' = (m.set sl' v').set sl v := by
  refine Memory.ext_get fun k => ?_
  by_cases first : k = sl
  · subst first
    rw [Memory.get_set_other _ _ h.symm, Memory.get_set_same, Memory.get_set_same]
  by_cases second : k = sl'
  · subst second
    rw [Memory.get_set_same, Memory.get_set_other _ _ h, Memory.get_set_same]
  · rw [Memory.get_set_other _ _ second, Memory.get_set_other _ _ first, Memory.get_set_other _ _ first,
      Memory.get_set_other _ _ second]

theorem State.setBuf_comm (s : State) {sl sl' : Slot} (v v' : Bytes) (h : sl' ≠ sl) :
    (s.setBuf sl v).setBuf sl' v' = (s.setBuf sl' v').setBuf sl v := by
  simp [State.setBuf, s.mem.set_comm v v' h]

/-- The unpad of a slot does not look at another. -/
theorem cutPadding_setBuf_other (w : CmdWord) (s : State) {rd sl : Slot} (v : Bytes) (h : rd ≠ sl) :
    cutPadding w rd (s.setBuf sl v) = (cutPadding w rd s).setBuf sl v := by
  have buf := s.buf_setBuf_other v h
  have len := s.len_setBuf_other v h
  rcases cutPadding_cases w rd s with ⟨empty, e⟩ | ⟨n, last, above, e⟩ | ⟨n, last, fits, e⟩ <;> rw [e]
  · simp only [cutPadding, buf, empty, lastByte?, List.getLast?_nil]
    rfl
  · rw [cutPadding_of_getLast?_above ((congrArg _ buf).trans last) (len.trans_lt above)]
    rfl
  · rw [cutPadding_of_getLast? ((congrArg _ buf).trans last) (fits.trans len.ge), buf, len, s.setBuf_comm _ _ h]

/-! ## A block step does the same to a block wherever it stands -/

/-- The state with another buffer file. -/
def State.withMem (s : State) (m : Memory) : State := { s with mem := m }

theorem State.setMask_withMem (s : State) (m : Memory) (i : BitVec 1) (v : Bytes) :
    (s.withMem m).setMask i v = (s.setMask i v).withMem m := by
  unfold State.setMask
  split <;> rfl

theorem memWrite_setMask (s : State) (sl : Slot) (off : Nat) (v : Bytes) (i : BitVec 1) (x : Bytes) :
    (memWrite s sl off v).setMask i x = memWrite (s.setMask i x) sl off v := by
  unfold State.setMask
  split <;> rfl

/-- What the two per-block steps have in common: from a block `b` they make a block and a context that depend on `b` and the
context alone, and write nothing but that block and that context. -/
structure BlockStep (c : Config) (f : Slot → Nat → State → State) : Prop where
  mode : ∀ sl off s, (f sl off s).mode = s.mode
  faulted : ∀ sl off s, (f sl off s).faulted = s.faulted
  len : ∀ {sl off s}, off + c.BS ≤ s.len sl → ∀ sl', (f sl off s).len sl' = s.len sl'
  block : ∀ {s : State}, s.mode ≠ .none → ∀ b, ∃ (x : Bytes) (u : State), x.length = c.BS ∧
    ∀ m sl off, memRead (s.withMem m) sl off c.BS = b → f sl off (s.withMem m) = memWrite (u.withMem m) sl off x

theorem encBlock_blockStep (c : Config) : BlockStep c (encBlock c) where
  mode sl off s := (encBlock_sameControl c sl off s).mode
  faulted sl off s := by
    obtain ⟨-, -, -, -, hfaulted, -⟩ := encBlock_frame c sl off s
    exact hfaulted
  len := encBlock_len
  block {s} hm b := by
    cases mode : s.mode with
    | none => exact absurd mode hm
    | ecb =>
      refine ⟨_, s, c.primEnc_length s.key b, fun m sl off read => ?_⟩
      rw [encBlock_ecb (s := s.withMem m) mode, read]
      rfl
    | cbc =>
      refine ⟨_, s.setMask s.maskI (c.primEnc s.key (xorBytes b s.curMask)), c.primEnc_length s.key (xorBytes b s.curMask),
        fun m sl off read => ?_⟩
      rw [encBlock_cbc (s := s.withMem m) mode, read, memWrite_setMask, State.setMask_withMem]
      rfl

theorem decBlock_blockStep (c : Config) : BlockStep c (decBlock c) where
  mode sl off s := (decBlock_frame c sl off s).1
  faulted sl off s := by
    obtain ⟨-, -, hfaulted, -⟩ := decBlock_frame c sl off s
    exact hfaulted
  len := decBlock_len
  block {s} hm b := by
    cases mode : s.mode with
    | none => exact absurd mode hm
    | ecb =>
      refine ⟨_, s, c.primDec_length s.key b, fun m sl off read => ?_⟩
      rw [decBlock_ecb (s := s.withMem m) mode, read]
      rfl
    | cbc =>
      refine ⟨xorBytes (c.primDec s.key b) s.curMask, { s.setMask (otherMask s.maskI) b with maskI := otherMask s.maskI },
        (xorBytes_length ..).trans (c.primDec_length ..), fun m sl off read => ?_⟩
      rw [decBlock_cbc (s := s.withMem m) mode, read, State.setMask_withMem]
      rfl

/-! ## A chunk by hand -/

/-- Chunk `k` of `rd` moved to the slot `free`, `command` there, and the chunk moved back; `encChunkByHand` and
`decChunkByHand` are this for `ENCB` and `DECB`. -/
def chunkByHand (c : Config) (command : State → State) (rd free : Slot) (s : State) (k : Nat) : State :=
  let out := hostWrite c free (chunk c (s.buf rd) k) s
  let done := command out
  hostWrite c rd (withChunk c (done.buf rd) k (done.buf free)) done

theorem encChunkByHand_eq (c : Config) (rd free : Slot) :
    encChunkByHand c rd free = chunkByHand c (encbRule c (encode (.encb free)) free) rd free := rfl

theorem decChunkByHand_eq (c : Config) (rd free : Slot) :
    decChunkByHand c rd free = chunkByHand c (decbRule c (encode (.decb free)) free) rd free := rfl

section

variable {c : Config} {f : Slot → Nat → State → State} {command : State → State} {rd free : Slot} {s : State} {k n : Nat}

theorem BlockStep.foldl_frame (step : BlockStep c f) (room : n * c.BS ≤ s.len rd) :
    ((List.range n).foldl (fun s k => f rd (chunkOffset c k) s) s).mode = s.mode ∧
    ((List.range n).foldl (fun s k => f rd (chunkOffset c k) s) s).faulted = s.faulted ∧
    ((List.range n).foldl (fun s k => f rd (chunkOffset c k) s) s).len rd = s.len rd := by
  induction n with
  | zero => exact ⟨rfl, rfl, rfl⟩
  | succ n ih =>
    have here : n * c.BS + c.BS ≤ s.len rd := by rwa [Nat.add_mul, Nat.one_mul] at room
    obtain ⟨mode, faulted, len⟩ := ih (Nat.le_of_add_right_le here)
    rw [List.range_succ, List.foldl_append]
    exact ⟨(step.mode ..).trans mode, (step.faulted ..).trans faulted, (step.len (here.trans len.ge) rd).trans len⟩

variable (step : BlockStep c f) (hcommand : ∀ s, s.mode ≠ .none → s.len free = c.BS → command s = f free 0 s)
  (hne : rd ≠ free) (hm : s.mode ≠ .none) (unfaulted : s.faulted = false) (fits : c.fits (s.len rd) = true)
include step hcommand hne hm unfaulted fits

/-- By hand the chunk becomes what the block step makes of it in place; only the slot `free` tells the two apart. -/
theorem chunkByHand_setBuf (room : (k + 1) * c.BS ≤ s.len rd) (v : Bytes) :
    ∃ x, chunkByHand c command rd free (s.setBuf free v) k = (f rd (chunkOffset c k) s).setBuf free x := by
  obtain ⟨x, u, length, writes⟩ := step.block hm (chunk c (s.buf rd) k)
  have block : (chunk c (s.buf rd) k).length = c.BS := chunk_length room
  have out : hostWrite c free (chunk c (s.buf rd) k) (s.setBuf free v) = s.setBuf free (chunk c (s.buf rd) k) := by
    have room : c.fits (chunk c (s.buf rd) k).length = true := c.fits_of_le_max (block.le.trans (Nat.le_max_left ..))
    rw [hostWrite_of_allowed (s := s.setBuf free v) unfaulted room, State.setBuf_setBuf]
  have whole : memRead (s.setBuf free (chunk c (s.buf rd) k)) free 0 c.BS = chunk c (s.buf rd) k :=
    (memRead_whole ((State.len_setBuf_same ..).trans block)).trans (State.buf_setBuf_same ..)
  have done : command (s.setBuf free (chunk c (s.buf rd) k)) = (u.withMem s.mem).setBuf free x := by
    have here : x.length = ((u.withMem s.mem).setBuf free (chunk c (s.buf rd) k)).len free := by
      rw [State.len_setBuf_same, length, block]
    rw [hcommand (s.setBuf free _) hm ((State.len_setBuf_same ..).trans block)]
    refine (writes (s.mem.set free (chunk c (s.buf rd) k)) free 0 whole).trans ((memWrite_whole here).trans ?_)
    exact State.setBuf_setBuf ..
  have place : f rd (chunkOffset c k) s = (u.withMem s.mem).setBuf rd (withChunk c (s.buf rd) k x) := by
    refine (writes s.mem rd (chunkOffset c k) rfl).trans ?_
    rw [memWrite, length, withChunk, Nat.add_mul, Nat.one_mul]
    rfl
  have faulted : u.faulted = false := (congrArg State.faulted place).symm.trans ((step.faulted ..).trans unfaulted)
  have len : (withChunk c (s.buf rd) k x).length = s.len rd := by
    rw [← State.len_setBuf_same, ← place]
    exact step.len (by rwa [Nat.add_mul, Nat.one_mul] at room) rd
  refine ⟨x, ?_⟩
  rw [chunkByHand, State.buf_setBuf_other _ _ hne, out, done, State.buf_setBuf_same, State.buf_setBuf_other _ _ hne]
  rw [place, ← State.setBuf_comm _ _ _ hne]
  exact hostWrite_of_allowed faulted (len ▸ fits)

/-- The whole loop by hand, chunk 0 first. -/
theorem foldl_chunkByHand (room : n * c.BS ≤ s.len rd) :
    ∃ x, (List.range n).foldl (chunkByHand c command rd free) s =
      ((List.range n).foldl (fun s k => f rd (chunkOffset c k) s) s).setBuf free x := by
  induction n with
  | zero => exact ⟨_, (s.setBuf_buf free).symm⟩
  | succ n ih =>
    have before : n * c.BS ≤ s.len rd := (Nat.mul_le_mul_right _ n.le_succ).trans room
    obtain ⟨mode, faulted, len⟩ := step.foldl_frame before
    obtain ⟨x, same⟩ := ih before
    rw [List.range_succ, List.foldl_append, List.foldl_append, same]
    exact chunkByHand_setBuf step hcommand hne (mode ▸ hm) (faulted.trans unfaulted) (len ▸ fits) (room.trans len.ge) x

end

end Sys2Proof.Machine
end

section
/-! ENC and DEC (43_ciphermode_buffer.md). -/

namespace Sys2Proof.Proofs

open Sys2Proof.Machine

/-- Settles O31: ECB writes the slot alone, CBC the current mask too. -/
theorem encFollowsItsRule : Obligations.EncFollowsItsRule := by
  intro rd s mask0 mask1
  have hmask := State.curMask_length mask0 mask1
  refine ⟨encode_toNat _, _, exec_eq_commandRule _ s, ?_⟩
  rw [commandRule]
  rcases encRule_cases Config.impl (encode (.enc rd)) rd s with ⟨none, e⟩ | ⟨mode, above, e⟩ | ⟨mode, fits, -⟩
  · rw [if_pos none, e]
    exact raise_onlyRaised .noMode _ s
  · rw [if_neg mode, e]
    exact (if_pos above).mpr (raise_onlyRaised .capacity _ s)
  obtain ⟨hmode, hkey, hmaskI, hnext, hstatus, hres, hhost, hslots⟩ := encRule_frame mode fits (encode (.enc rd))
  rw [if_neg mode, if_neg (Bool.not_eq_false _ ▸ fits)]
  refine ⟨encRule_len mode fits _, encRule_buf mode hmask fits _, sameSlotsBut_of_buf hslots, hstatus, hres, hhost, ?_⟩
  by_cases ecb : s.mode = .ecb
  · rw [if_pos ecb, encRule_ecb ecb fits]
    exact s.setBuf_sameContext rd _
  · have hcur := encRule_cbc_curMask (Mode.eq_cbc mode ecb) hmask fits (encode (.enc rd))
    rw [State.curMask, hmaskI] at hcur
    rw [State.nextMask, hmaskI] at hnext
    rw [if_neg ecb]
    exact ⟨hmode, hkey, hmaskI, hcur, hnext⟩

/-- Settles O32: the context is that of the chunk loop, which in ECB is the old one. -/
theorem decFollowsItsRule : Obligations.DecFollowsItsRule := by
  intro rd s mask0 mask1
  have hmask := State.curMask_length mask0 mask1
  refine ⟨encode_toNat _, _, exec_eq_commandRule _ s, ?_⟩
  rw [commandRule]
  rcases decRule_cases Config.impl (encode (.dec rd)) rd s with
    ⟨none, e⟩ | ⟨mode, bad, e⟩ | ⟨mode, aligned, empty, e⟩ | ⟨mode, aligned, nonempty, -⟩
  · rw [if_pos none, e]
    exact raise_onlyRaised .noMode _ s
  · rw [if_neg mode, if_pos bad, e]
    exact raise_onlyRaised .misaligned _ s
  · rw [if_neg mode, if_neg (not_not_intro aligned), if_pos empty, e]
    exact raise_onlyRaised .emptyBuffer _ s
  obtain ⟨-, hslots, hres, hhost⟩ := decRule_frame mode aligned nonempty (encode (.dec rd))
  rw [if_neg mode, if_neg (not_not_intro aligned), if_neg nonempty]
  refine ⟨decrypted_length hmask aligned, decRule_outcome mode hmask aligned nonempty _, hslots, hres, hhost, ?_⟩
  by_cases ecb : s.mode = .ecb
  · rw [if_pos ecb]
    exact decRule_ecb_context ecb aligned nonempty _
  · rw [if_neg ecb]
    exact decRule_cbc_context (Mode.eq_cbc mode ecb) hmask aligned nonempty _

/-- Settles O53: after the padding the two loops go step by step, and end in states that only the slot `free` tells apart. -/
theorem encIsPadThenEncbOfEachChunk : Obligations.EncIsPadThenEncbOfEachChunk := by
  intro c w rd free s hne inv unfaulted mode fits
  have bs : (BitVec.ofNat 8 c.BS).toNat = c.BS := Nat.mod_eq_of_lt (Nat.lt_succ_of_le c.BS_le)
  have pad : padRule c w rd (BitVec.ofNat 8 c.BS) s = s.setBuf rd (padded c.BS (s.buf rd)) :=
    (padRule_of_fits (bs.symm ▸ c.BS_pos) (bs.symm ▸ fits) w).trans (by rw [bs])
  have length := len_setBuf_padded c rd s
  have room : c.fits ((s.setBuf rd (padded c.BS (s.buf rd))).len rd) = true := by
    rw [length, ← add_padLen c.BS_pos]
    exact fits
  obtain ⟨x, same⟩ := foldl_chunkByHand (s := s.setBuf rd _) (encBlock_blockStep c)
    (fun _ mode block => encbRule_of_block mode block (encode (.encb free))) hne mode unfaulted room length.ge
  rw [← encChunks_eq_foldl, ← encRule_of_fits mode fits w, ← encChunkByHand_eq] at same
  obtain ⟨-, -, -, -, ⟨faulted, -⟩, -⟩ := encRule_frame mode fits w
  rw [pad, same]
  exact ⟨(State.buf_setBuf_other _ _ hne).symm, State.setBuf_sameContext .., faulted.trans unfaulted⟩

/-- Settles O54: as for ENC, and the unpad does not look at the slot `free`. -/
theorem decIsDecbOfEachChunkThenUnpad : Obligations.DecIsDecbOfEachChunkThenUnpad := by
  intro c w rd free s hne inv unfaulted mode aligned nonempty
  obtain ⟨x, same⟩ := foldl_chunkByHand (decBlock_blockStep c)
    (fun _ mode block => decbRule_of_block mode block (encode (.decb free))) hne mode unfaulted (inv.slots rd)
    (Nat.div_mul_le_self (s.len rd) c.BS)
  rw [← decChunks_eq_foldl, ← decChunkByHand_eq] at same
  rw [unpadRule, same, cutPadding_setBuf_other w _ _ hne, ← decRule_of_chunks mode aligned nonempty w]
  exact ⟨(State.buf_setBuf_other _ _ hne).symm, State.setBuf_sameContext .., rfl, rfl, rfl⟩

/-- Settles O55. -/
theorem ecbRoundTrip : Obligations.EcbRoundTrip :=
  fun _ w w' _ _ hinv ecb key fits => decRule_encRule_ecb hinv ecb key fits w w'

/-- Settles O56: the second CBCNEW puts the mask back that the encryption started from. -/
theorem cbcRoundTripWithReconstruction : Obligations.CbcRoundTripWithReconstruction := by
  intro c w₁ w₂ w₃ w₄ rd sk sv s hinv hsk hsv key iv fits
  have enc := encRule_cbcnewRule_encrypted (rd := rd) key iv fits w₁ w₂
  generalize encRule c w₂ rd (cbcnewRule c w₁ sk sv s) = t at *
  have tsk := enc.slots sk hsk.symm
  have tsv := enc.slots sv hsv.symm
  obtain ⟨vmode, vkey, vcur, vbuf, vstatus⟩ :=
    cbcnewRule_context (s := t) ((congrArg List.length tsk).trans key) ((congrArg List.length tsv).trans iv) w₃
  generalize cbcnewRule c w₃ sk sv t = v at *
  have cur : v.curMask = s.buf sv := vcur.trans tsv
  have len : v.len rd = t.len rd := congrArg List.length (vbuf rd)
  have same := (xorBlock_xorBlock_eq_self_iff (p := chunk c (withPadding c.BS (s.buf rd)) 0)
    (iv.trans (length_chunk_zero_withPadding ..).symm) (iv.trans (length_chunk_zero_withPadding ..).symm)).2 rfl
  have out := enc.outcome hinv key iv vmode (vkey.trans tsk) (vbuf rd) ((congrArg List.length cur).trans iv) w₄
  rw [cur, same, chunk_zero, List.take_append_drop] at out
  obtain ⟨buf, status⟩ := out.of_padding (len.trans enc.len) rfl
  obtain ⟨aligned, nonempty⟩ := enc.whole
  obtain ⟨-, slots, -⟩ := decRule_frame (by simp [vmode]) (len ▸ aligned) (len ▸ nonempty) w₄
  have before : SameSlotsBut rd s v := sameSlotsBut_of_buf fun sl hne => (vbuf sl).trans (enc.slots sl hne)
  exact ⟨buf.trans (padded_take ..), before.trans slots, (enc.status.trans vstatus).trans status⟩

/-- Settles O57: the current mask that the encryption leaves, its last block, enters chunk 0 in the place of the IV. -/
theorem cbcDecryptionOnTheEncryptingContext : Obligations.CbcDecryptionOnTheEncryptingContext := by
  intro c w₁ w₂ w₃ rd sk sv s hinv hsk hsv key iv long fits
  have enc := encRule_cbcnewRule_encrypted (rd := rd) key iv fits w₁ w₂
  generalize encRule c w₂ rd (cbcnewRule c w₁ sk sv s) = t at *
  have first : (chunk c (s.buf rd) 0).length = c.BS := chunk_length (by rwa [Nat.zero_add, Nat.one_mul])
  have mask := enc.curMask_length
  have out := enc.outcome hinv key iv enc.mode enc.key rfl mask w₃
  rw [chunk_zero_withPadding long] at out
  have wrong := xorBlock_length (xorBlock_length first iv) mask
  obtain ⟨buf, status⟩ := out.of_padding enc.len (getLast?_append_drop_withPadding _ long)
  rw [take_append_drop_withPadding wrong long, enc.curMask] at buf
  rw [enc.curMask] at wrong mask
  refine ⟨buf, ?_, enc.status.trans status⟩
  rw [buf, chunk_zero _ (_ ++ _), List.take_left' wrong]
  exact xorBlock_xorBlock_eq_self_iff (iv.trans first.symm) (mask.trans first.symm)

/-- Settles O58: the one chunk is chunk 0 and the last block. -/
theorem cbcOneChunkDecryptionOnTheEncryptingContext : Obligations.CbcOneChunkDecryptionOnTheEncryptingContext := by
  intro c w₁ w₂ w₃ rd sk sv s hinv hsk hsv key iv short
  have number : s.len rd / c.BS = 0 := Nat.div_eq_of_lt short
  have fits : c.fits (s.len rd + padLen c.BS (s.len rd)) = true :=
    c.fits_of_le_max (by rw [add_padLen c.BS_pos, number, Nat.zero_add, Nat.one_mul]; exact Nat.le_max_left ..)
  have enc := encRule_cbcnewRule_encrypted (rd := rd) key iv fits w₁ w₂
  generalize encRule c w₂ rd (cbcnewRule c w₁ sk sv s) = t at *
  have len : t.len rd = c.BS := by rw [enc.len_eq, number, Nat.zero_add, Nat.one_mul]
  have plain : (withPadding c.BS (s.buf rd)).length = c.BS := enc.len.symm.trans len
  have cur : t.curMask = t.buf rd := by
    rw [enc.curMask, number, chunk_zero, ← len]
    exact List.take_length
  have out := enc.outcome hinv key iv enc.mode enc.key rfl enc.curMask_length w₃
  rw [chunk_zero_withPadding_of_lt short, cur, List.drop_of_length_le plain.le, List.append_nil, DecOutcome, len] at out
  refine ⟨len, xorBlock_xorBlock_eq_self_iff (iv.trans plain.symm) (len.trans plain.symm), ?_⟩
  split at out
  · next above => exact (if_pos above).mpr out
  · next below => exact (if_neg below).mpr ⟨out.1, enc.status.trans out.2⟩

end Sys2Proof.Proofs
end

section
/-! SUPPORT. What a command and a step do to the status registers: nothing, or one fault entry, whose code the word can raise
(60_exceptions.md R120, R124, R133). -/

namespace Sys2Proof.Machine

variable {c : Config} {w : CmdWord} {s t : State}

/-! ## The capacity (R8) -/

theorem Config.fits_eq_false_iff (c : Config) (n : Nat) : c.fits n = false ↔ ∃ cap, c.CAP = some cap ∧ cap < n := by
  unfold Config.fits
  cases c.CAP <;> simp

/-! ## Where the status registers stay -/

theorem encBlock_sameStatus (c : Config) (sl : Slot) (off : Nat) (s : State) : SameStatus s (encBlock c sl off s) := by
  obtain ⟨-, -, -, -, hfaulted, herr, hfcmd, -⟩ := encBlock_frame c sl off s
  exact ⟨hfaulted, herr, hfcmd⟩

theorem encChunks_sameStatus (c : Config) (sl : Slot) (n : Nat) (s : State) : SameStatus s (encChunks c sl n s) := by
  obtain ⟨-, -, -, -, hfaulted, herr, hfcmd, -⟩ := encChunks_frame c sl n s
  exact ⟨hfaulted, herr, hfcmd⟩

theorem decBlock_sameStatus (c : Config) (sl : Slot) (off : Nat) (s : State) : SameStatus s (decBlock c sl off s) := by
  obtain ⟨-, -, hfaulted, herr, hfcmd, -⟩ := decBlock_frame c sl off s
  exact ⟨hfaulted, herr, hfcmd⟩

theorem decChunks_sameStatus (c : Config) (sl : Slot) (n : Nat) (s : State) : SameStatus s (decChunks c sl n s) := by
  obtain ⟨-, -, hfaulted, herr, hfcmd, -⟩ := decChunks_frame c sl n s
  exact ⟨hfaulted, herr, hfcmd⟩

/-! ## Where a fault is raised -/

/-- The fault that the word `w` raises in `s`: a fault entry on `s` itself, with a code that `w` can raise, or the
`PadUnderflow` of `DEC`, raised after chunks have been decrypted (R133). `commandRule_status` ties it to the rules. -/
inductive FaultRaised (c : Config) (w : CmdWord) (s : State) : State → Prop
  | early (k : FaultKind) (raisedBy : mayRaise (faultCode k) (decode w) = true) : FaultRaised c w s (raise k w s)
  | latePadUnderflow (rd : Slot) (n : Nat) (command : decode w = .command (.dec rd)) :
      FaultRaised c w s (raise .padUnderflow w (decChunks c rd n s))

theorem FaultRaised.record (h : FaultRaised c w s t) : t.fcmd = w ∧ mayRaise t.err (decode w) = true := by
  cases h with
  | early k raisedBy => exact ⟨rfl, raisedBy⟩
  | latePadUnderflow rd n command =>
    rw [command]
    exact ⟨rfl, rfl⟩

/-- But for `PadUnderflow` in `DEC` a fault leaves everything else alone (R133). -/
theorem FaultRaised.onlyRaised (h : FaultRaised c w s t) (hex : (∀ rd, decode w ≠ .command (.dec rd)) ∨ t.err ≠ 6) :
    OnlyRaised t.err w s t := by
  cases h with
  | early k _ => exact raise_onlyRaised k w s
  | latePadUnderflow rd n command =>
    rcases hex with notDec | notUnderflow
    · exact absurd command (notDec rd)
    · exact absurd rfl notUnderflow

/-- A rule leaves the status registers as they are or raises a fault that its command can raise. -/
theorem commandRule_status (c : Config) {i : Instr} (hd : decode w = .command i) (s : State) :
    SameStatus s (commandRule c w i s) ∨ FaultRaised c w s (commandRule c w i s) := by
  have faults (k : FaultKind) (can : mayRaise (faultCode k) (.command i) = true) :
      SameStatus s (raise k w s) ∨ FaultRaised c w s (raise k w s) := .inr (.early k (hd ▸ can))
  have completes {t : State} (same : SameStatus s t) : SameStatus s t ∨ FaultRaised c w s t := .inl same
  cases i with simp only [commandRule]
  | xor rd ra rb =>
    rcases xorRule_cases w rd ra rb s with ⟨-, e⟩ | ⟨-, e⟩ <;> rw [e]
    exacts [faults _ rfl, completes ⟨rfl, rfl, rfl⟩]
  | xori rd rb =>
    rcases xoriRule_cases w rd rb s with ⟨-, e⟩ | ⟨-, e⟩ <;> rw [e]
    exacts [faults _ rfl, completes ⟨rfl, rfl, rfl⟩]
  | pad rd imm8 =>
    rcases padRule_cases c w rd imm8 s with ⟨-, e⟩ | ⟨-, -, e⟩ | ⟨-, -, e⟩ <;> rw [e]
    exacts [faults _ rfl, faults _ rfl, completes ⟨rfl, rfl, rfl⟩]
  | unpad rd =>
    rw [unpadRule]
    rcases cutPadding_cases w rd s with ⟨-, e⟩ | ⟨n, -, -, e⟩ | ⟨n, -, -, e⟩ <;> rw [e]
    exacts [faults _ rfl, faults _ rfl, completes ⟨rfl, rfl, rfl⟩]
  | ecbnew ra =>
    rcases ecbnewRule_cases c w ra s with ⟨-, e⟩ | ⟨-, e⟩ <;> rw [e]
    exacts [faults _ rfl, completes ⟨rfl, rfl, rfl⟩]
  | cbcnew ra rb =>
    rcases cbcnewRule_cases c w ra rb s with ⟨-, e⟩ | ⟨-, -, e⟩ | ⟨-, -, e⟩ <;> rw [e]
    exacts [faults _ rfl, faults _ rfl, completes ⟨rfl, rfl, rfl⟩]
  | blksz =>
    rcases blkszRule_cases c w s with ⟨-, e⟩ | ⟨-, e⟩ <;> rw [e]
    exacts [faults _ rfl, completes ⟨rfl, rfl, rfl⟩]
  | encb rd =>
    rcases encbRule_cases c w rd s with ⟨-, e⟩ | ⟨-, -, e⟩ | ⟨-, -, e⟩ <;> rw [e]
    exacts [faults _ rfl, faults _ rfl, completes (encBlock_sameStatus ..)]
  | decb rd =>
    rcases decbRule_cases c w rd s with ⟨-, e⟩ | ⟨-, -, e⟩ | ⟨-, -, e⟩ <;> rw [e]
    exacts [faults _ rfl, faults _ rfl, completes (decBlock_sameStatus ..)]
  | enc rd =>
    rcases encRule_cases c w rd s with ⟨-, e⟩ | ⟨-, -, e⟩ | ⟨-, -, e⟩ <;> rw [e]
    exacts [faults _ rfl, faults _ rfl, completes (encChunks_sameStatus ..)]
  | dec rd =>
    rcases decRule_cases c w rd s with ⟨-, e⟩ | ⟨-, -, e⟩ | ⟨-, -, -, e⟩ | ⟨-, -, nonempty, e⟩ <;> rw [e]
    · exact faults _ rfl
    · exact faults _ rfl
    · exact faults _ rfl
    · rcases cutPadding_cases w rd (decChunks c rd (s.len rd / c.BS) s) with ⟨empty, -⟩ | ⟨n, -, -, e⟩ | ⟨n, -, -, e⟩
      · have len_kept := decChunks_len (Nat.div_mul_le_self (s.len rd) c.BS) rd
        exact absurd (len_kept.symm.trans (congrArg List.length empty)) nonempty
      · exact e ▸ .inr (.latePadUnderflow rd _ hd)
      · exact e ▸ completes (decChunks_sameStatus ..)

/-- The codes of `PAD` and `ENC` where no other of their faults is due (R124). -/
theorem padRule_err_eq_capacity_iff {imm8 : BitVec 8} (hs : s.err = 0) (pos : 1 ≤ imm8.toNat) (c : Config) (w : CmdWord)
    (rd : Slot) : (padRule c w rd imm8 s).err = 4 ↔ c.fits (s.len rd + padLen imm8.toNat (s.len rd)) = false := by
  rcases padRule_cases c w rd imm8 s with ⟨zero, -⟩ | ⟨-, above, e⟩ | ⟨-, fits, e⟩
  · omega
  · simp [e, above, faultCode]
  · simp [e, fits, hs]

theorem encRule_err_eq_capacity_iff (hs : s.err = 0) (hm : s.mode ≠ .none) (c : Config) (w : CmdWord) (rd : Slot) :
    (encRule c w rd s).err = 4 ↔ c.fits (s.len rd + padLen c.BS (s.len rd)) = false := by
  rcases encRule_cases c w rd s with ⟨none, -⟩ | ⟨-, above, e⟩ | ⟨-, fits, e⟩
  · exact absurd none hm
  · simp [e, above, faultCode]
  · obtain ⟨-, err, -⟩ := encChunks_sameStatus c rd (s.len rd / c.BS + 1) (s.setBuf rd (padded c.BS (s.buf rd)))
    simp [e, fits, err, hs]

/-! ## The issue and the step -/

theorem issueWord_of_faulted (hf : s.faulted = true) (w : CmdWord) : issueWord w s = .next s := by
  simp [issueWord, hf]

theorem issueWord_of_illegal {why : IllegalWord} (hf : s.faulted = false) (hd : decode w = .illegal why) :
    issueWord w s = .next (raise .illegalCommand w s) := by
  simp [issueWord, hf, hd]

theorem issueWord_status (h : issueWord w s = .next t) :
    SameStatus s t ∨ s.faulted = false ∧ FaultRaised Config.impl w s t := by
  rcases issueWord_cases h with ⟨-, ht⟩ | ⟨hf, ⟨why, hd⟩, ht⟩ | ⟨hf, i, hd, ht⟩
  · obtain rfl := Host.Outcome.next.inj ht
    exact .inl ⟨rfl, rfl, rfl⟩
  · obtain rfl := Host.Outcome.next.inj ht
    exact .inr ⟨hf, .early .illegalCommand (by rw [hd]; rfl)⟩
  · obtain rfl := exec_eq_next_iff.1 ht.symm
    rw [(decode_eq_command_iff_encode_eq w i).1 hd]
    exact (commandRule_status _ hd s).imp_right (⟨hf, ·⟩)

/-- A step that changes `FAULTED`, `ERR` or `FCMD` is a reset, or an issue that raises a fault in an unfaulted engine. -/
theorem step_status_cases (h : step s = .next t) :
    (∃ rest, pending Config.impl s = .reset :: rest ∧ t = hostReset Config.impl (takeMove rest s)) ∨
    SameStatus s t ∨
    (s.faulted = false ∧ ∃ w rest, pending Config.impl s = .issue w :: rest ∧
      FaultRaised Config.impl w (takeIssue rest s) t) := by
  rcases step_cases h with ⟨-, rfl⟩ | ⟨rest, ⟨sl, v, -, rfl⟩ | ⟨sl, -, rfl⟩ | ⟨-, rfl⟩ | ⟨hp, rfl⟩ | ⟨w, hp, hw⟩⟩
  · exact .inr (.inl ⟨rfl, rfl, rfl⟩)
  · exact .inr (.inl ⟨rfl, rfl, rfl⟩)
  · exact .inr (.inl ⟨rfl, rfl, rfl⟩)
  · exact .inr (.inl ⟨rfl, rfl, rfl⟩)
  · exact .inl ⟨rest, hp, rfl⟩
  · rcases issueWord_status hw with same | ⟨hf, raised⟩
    · exact .inr (.inl same)
    · exact .inr (.inr ⟨hf, w, rest, hp, raised⟩)

end Sys2Proof.Machine
end

section
/-! Faults: when they are raised, what they record, and the one way out (60_exceptions.md). -/

namespace Sys2Proof.Proofs

open Sys2Proof.Machine

/-- Settles O38: the record is kept, cleared by a reset, or made new by a fault that the issued word can raise. -/
theorem faultRecordNamesACommandThatRaisesIt : Obligations.FaultRecordNamesACommandThatRaisesIt := by
  intro s t hs h ht
  rcases step_status_cases h with ⟨rest, -, rfl⟩ | ⟨faulted, err, fcmd⟩ | ⟨-, w, rest, -, raised⟩
  · exact absurd ht Bool.false_ne_true
  · rw [err, fcmd]
    exact hs (faulted.symm.trans ht)
  · obtain ⟨fcmd, can⟩ := raised.record
    rwa [fcmd]

/-- Settles O39: the step can only be an issue that raises a fault, and every fault but the late one of `DEC` is raised on
the state the issue found. -/
theorem faultsArePrecise : Obligations.FaultsArePrecise := by
  intro s t w rest hp hf h ht
  rcases step_status_cases h with ⟨rest', hp', -⟩ | ⟨faulted, -, -⟩ | ⟨-, w', rest', hp', raised⟩
  · simp [hp] at hp'
  · exact absurd (hf.symm.trans (faulted.symm.trans ht)) Bool.false_ne_true
  · obtain ⟨rfl, rfl⟩ : w = w' ∧ rest = rest' := by simpa [hp] using hp'
    refine ⟨raised.record.1, fun hex => ?_⟩
    obtain ⟨-, -, -, slots, context, res, -⟩ := raised.onlyRaised hex
    exact ⟨slots, context, res⟩

/-- Settles O40: in a faulted engine no issue raises a fault, so only a reset changes the status registers. -/
theorem onlyResetLeavesAFault : Obligations.OnlyResetLeavesAFault := by
  intro s t hf h
  rcases step_status_cases h with ⟨rest, hp, -⟩ | ⟨faulted, err, fcmd⟩ | ⟨unfaulted, -⟩
  · exact .inl ⟨rest, hp⟩
  · exact .inr ⟨faulted.trans hf, err, fcmd⟩
  · exact absurd (unfaulted.symm.trans hf) Bool.false_ne_true

/-- Settles O46: `padLen` is the number of bytes appended, and not to fit is to exceed a finite `CAP`. -/
theorem capacityIsRaisedExactlyAboveCap : Obligations.CapacityIsRaisedExactlyAboveCap := by
  intro c w rd imm8 s _ herr
  exact ⟨fun pos => (padRule_err_eq_capacity_iff herr pos c w rd).trans (Config.fits_eq_false_iff ..),
    fun mode => (encRule_err_eq_capacity_iff herr mode c w rd).trans (Config.fits_eq_false_iff ..)⟩

/-- Settles O11: a word that hits no row is illegal, and an issue is always a move. -/
theorem illegalWordRaisesIllegalCommand : Obligations.IllegalWordRaisesIllegalCommand := by
  intro s w rest h hf xor xori pad unpad ecbnew cbcnew blksz encb decb enc dec
  have no_row : ∀ r ∈ opRows, ¬ r.hits w = true := by
    simp only [opRows, OpRow.hits_iff, List.forall_mem_cons]
    exact ⟨xor, xori, pad, unpad, ecbnew, cbcnew, blksz, encb, decb, enc, dec, List.forall_mem_nil _⟩
  have raised : issueWord w (takeIssue rest s) = .next (raise .illegalCommand w (takeIssue rest s)) :=
    issueWord_of_illegal hf (decode_eq_illegal no_row)
  exact ⟨_, (step_of_allowed h rfl).trans raised, raise_onlyRaised .illegalCommand w _⟩

/-- Settles O12: a write is no move of a faulted engine; the other four are, and an issue and the two answers touch the
host's side only. -/
theorem faultedEngineOnlyAnswersAndResets : Obligations.FaultedEngineOnlyAnswersAndResets := by
  intro s m rest h hf
  cases m with
  | write sl v =>
    have refused : ¬ allowed Config.impl s (.write sl v) = true := by simp [allowed_write_iff, hf]
    exact step_of_refused h (Bool.eq_false_iff.2 refused)
  | read sl => exact ⟨_, step_of_allowed h rfl, withHost_sameEngine s _, rfl⟩
  | status => exact ⟨_, step_of_allowed h rfl, withHost_sameEngine s _, by rw [← hf]; rfl⟩
  | issue w =>
    exact ⟨_, (step_of_allowed h rfl).trans (issueWord_of_faulted (s := takeIssue rest s) hf w),
      withHost_sameEngine s _, rfl⟩
  | reset => exact ⟨_, step_of_allowed h rfl, rfl, rfl, rfl, rfl⟩

/-- Settles O18: with an empty list of moves, to make it empty changes nothing. -/
theorem idleStepChangesNothing : Obligations.IdleStepChangesNothing := by
  intro s h
  have same : idle s = s := by rw [idle, ← h]
  rw [step_of_pending_nil (pending_nil h), same]

end Sys2Proof.Proofs
end

section
/-! SUPPORT. The block commands on a slot that holds one block: what they leave when they complete (42_ciphermode_block.md R93 to
R98). -/

namespace Sys2Proof.Machine

variable {c : Config} {s : State} {rd : Slot}

theorem encBlock_sameSlotsBut (c : Config) (sl : Slot) (off : Nat) (s : State) : SameSlotsBut sl s (encBlock c sl off s) := by
  obtain ⟨-, -, -, -, -, -, -, -, -, hslots⟩ := encBlock_frame c sl off s
  exact sameSlotsBut_of_buf hslots

theorem decBlock_sameSlotsBut (c : Config) (sl : Slot) (off : Nat) (s : State) : SameSlotsBut sl s (decBlock c sl off s) := by
  obtain ⟨-, -, -, -, -, -, -, hslots⟩ := decBlock_frame c sl off s
  exact sameSlotsBut_of_buf hslots

theorem encBlock_maskI (c : Config) (sl : Slot) (off : Nat) (s : State) : (encBlock c sl off s).maskI = s.maskI := by
  obtain ⟨-, -, hmaskI, -⟩ := encBlock_frame c sl off s
  exact hmaskI

/-- In CBC the current mask becomes the ciphertext block, because `MASK_I` stays (R95, 90_conflicts.md C5). -/
theorem encBlock_cbc_curMask_whole (hm : s.mode = .cbc) (hmask : s.curMask.length = c.BS) (hl : s.len rd = c.BS) :
    (encBlock c rd 0 s).curMask = (encBlock c rd 0 s).buf rd := by
  obtain ⟨-, hcur, -⟩ := encBlock_cbc_whole hm hmask hl
  rw [State.curMask, encBlock_maskI, hcur]

/-- In CBC the current mask becomes the block that came in, whatever mask the plaintext is made with (R98). -/
theorem decBlock_cbc_curMask_whole (hm : s.mode = .cbc) (hl : s.len rd = c.BS) :
    (decBlock c rd 0 s).curMask = s.buf rd := by
  rw [decBlock_curMask, memRead_whole hl, plainMask, hm]
  rfl

end Sys2Proof.Machine
end

section
/-! Completion: no command stops the machine, and each completes where its tests pass (70_reset_and_hazards.md R142, R155). -/

namespace Sys2Proof.Proofs

open Sys2Proof.Machine

/-- Settles O33: each rule, its test passed, is one write of `rd`. -/
theorem bufferCommandsComplete : Obligations.BufferCommandsComplete := by
  intro s rd ra rb imm8
  refine ⟨fun key => ⟨_, exec_xor_of_key key rd ra, ?_, s.setBuf_onlySlot rd _⟩,
    fun key => ⟨_, exec_xori_of_key key rd, ?_, s.setBuf_onlySlot rd _⟩,
    fun pos fits => ⟨_, exec_eq_next_iff.2 (padRule_of_fits pos fits _).symm, ?_, s.setBuf_onlySlot rd _⟩,
    fun n last covered =>
      ⟨_, exec_eq_next_iff.2 (cutPadding_of_getLast? ((getLast?_buf s rd).trans last) covered _).symm, ?_,
        s.setBuf_onlySlot rd _⟩⟩ <;>
    rw [State.len_setBuf_same]
  · exact xorBytes_length ..
  · exact xorBytes_length ..
  · exact (padded_length ..).trans (add_padLen pos _)
  · rw [List.length_take]
    exact Nat.min_eq_left (Nat.sub_le ..)

/-- Settles O34: ENCB and DECB are the block step at offset 0, which in ECB writes the slot alone. -/
theorem blockCommandsComplete : Obligations.BlockCommandsComplete := by
  intro s rd ra rb
  refine ⟨fun key => ?ecbnew, fun key iv => ?cbcnew, fun mode => ?blksz, fun mode block => ?encb, fun mode block => ?decb⟩
  case ecbnew =>
    exact ⟨_, exec_eq_next_iff.2 (ecbnewRule_of_key key _).symm, rfl, rfl, fun _ => ⟨rfl, fun _ => rfl⟩, rfl, rfl, rfl⟩
  case cbcnew =>
    exact ⟨_, exec_eq_next_iff.2 (cbcnewRule_of_key_iv key iv _).symm, rfl, rfl, rfl, fun _ => ⟨rfl, fun _ => rfl⟩, rfl,
      rfl, rfl⟩
  case blksz =>
    exact ⟨_, exec_eq_next_iff.2 (blkszRule_of_mode mode _).symm, rfl, fun _ => ⟨rfl, fun _ => rfl⟩,
      ⟨rfl, rfl, rfl, rfl, rfl⟩, rfl, rfl, rfl⟩
  case encb =>
    refine ⟨_, exec_eq_next_iff.2 (encbRule_of_block mode block _).symm, (encBlock_len (by omega) rd).trans block,
      encBlock_sameSlotsBut _ rd 0 s, encBlock_sameStatus _ rd 0 s, encBlock_maskI .., fun ecb => ?_, fun cbc mask => ?_⟩
    · rw [encBlock_ecb_whole ecb block]
      exact ⟨State.buf_setBuf_same .., s.setBuf_sameContext rd _⟩
    · exact ⟨(encBlock_cbc_whole cbc mask block).1, encBlock_cbc_curMask_whole cbc mask block⟩
  case decb =>
    refine ⟨_, exec_eq_next_iff.2 (decbRule_of_block mode block _).symm, (decBlock_len (by omega) rd).trans block,
      decBlock_sameSlotsBut _ rd 0 s, decBlock_sameStatus _ rd 0 s, fun ecb => ?_, fun cbc => decBlock_cbc_curMask_whole cbc block,
      fun cbc mask => (decBlock_cbc_whole cbc mask block).1⟩
    rw [decBlock_ecb_whole ecb block]
    exact ⟨State.buf_setBuf_same .., s.setBuf_sameContext rd _⟩

/-- Settles O19: with no move to come the step idles, a transaction answers a next state, and the issue of a word ends in one
too (`issueWord_total`), since every command is a rule that gives a state. -/
theorem everyStepEnds : Obligations.EveryStepEnds := by
  intro s
  obtain ⟨t, ends, -⟩ := step_host s
  exact ⟨t, ends⟩

end Sys2Proof.Proofs
end

section
/-! Completion of ENC and DEC, the sample words of the encoding, and the invariant at power-on (43_ciphermode_buffer.md R110,
R111; 95_test_vectors.md section 3; 10_state.md R24). -/

namespace Sys2Proof.Machine

variable {w : CmdWord} {rd : Slot} {x : Bytes} {s t : State}

/-- A last decrypted byte that the length covers cuts the slot and raises nothing (R111). -/
theorem DecOutcome.of_covered (h : DecOutcome w rd x s t) (covered : (x.getLastD 0).toNat ≤ s.len rd) :
    t.buf rd = x.take (s.len rd - (x.getLastD 0).toNat) ∧ SameStatus s t := by
  rwa [DecOutcome, if_neg (Nat.not_lt.2 covered)] at h

end Sys2Proof.Machine

namespace Sys2Proof.Proofs

open Sys2Proof.Machine

/-- Settles O35: where their tests pass, ENC pads to the next whole block and DEC cuts what it has decrypted. -/
theorem wholeBufferCommandsComplete : Obligations.WholeBufferCommandsComplete := by
  intro s rd
  refine ⟨fun mode fits => ?enc, fun mode mask0 mask1 aligned nonempty covered => ?dec⟩
  case enc =>
    obtain ⟨-, -, -, -, status, -, -, slots⟩ := encRule_frame mode fits (encode (.enc rd))
    exact ⟨_, exec_eq_commandRule _ s, encRule_len mode fits _, sameSlotsBut_of_buf slots, status⟩
  case dec =>
    have mask := State.curMask_length mask0 mask1
    have length := decrypted_length mask aligned
    obtain ⟨cut, status⟩ := (decRule_outcome mode mask aligned nonempty (encode (.dec rd))).of_covered covered
    obtain ⟨-, slots, -, -⟩ := decRule_frame mode aligned nonempty (encode (.dec rd))
    exact ⟨_, exec_eq_commandRule _ s,
      (congrArg List.length cut).trans (List.length_take_of_le (length.symm ▸ Nat.sub_le ..)), slots, status⟩

/-- Settles O8: each word is the encoding of the command beside it, and decoding undoes the encoding. -/
theorem sampleWordsDecode : Obligations.SampleWordsDecode :=
  ⟨decode_encode (.xor .b2 .b0 .b1), decode_encode (.xori .b2 .b1), decode_encode (.pad .b3 255),
    decode_encode (.cbcnew .b1 .b2), decode_encode (.enc .b3)⟩

/-- Settles O36: the invariant holds of the reset state of every configuration, whatever the host's side. -/
theorem invariantHoldsAtReset : Obligations.InvariantHoldsAtReset := resetWith_inv _ _

end Sys2Proof.Proofs
end
